-- ==== Sys2Proof/Word.lean ====
section
/-! DEFINITION. The word types of the machine (00_scope.md R10, R14). -/

namespace Sys2Proof

/-- A four-bit slice of an opcode (R14 "Nibble"). -/
abbrev Nibble := BitVec 4

/-- A byte of memory, a V register, a timer, the literal `kk`. -/
abbrev Byte := BitVec 8

/-- The 12-bit address operand `nnn`. -/
abbrev Addr12 := BitVec 12

/-- A 16-bit word: an opcode, `I`, `pc`, a stack entry, the keypad. -/
abbrev Word := BitVec 16

end Sys2Proof
end

