-- ==== Sys2Proof/Syntax.lean ====
section
/-! DEFINITION. The instruction set: one constructor per row of spec/opcode_table.json (30_encoding.md R75), in the order of that table. -/

namespace Sys2Proof

/-- The 34 instructions with their operand values (R74, R75). Operands are bit vectors of the fields' own widths (R71), so
every operand value is one the encoding admits (R73: "all 16 values are legal"). -/
inductive Instr where
  /-- `00E0`, R140 -/
  | cls
  /-- `00EE`, R100 -/
  | ret
  /-- `1nnn`, R101 -/
  | jp (nnn : Addr12)
  /-- `2nnn`, R102 -/
  | call (nnn : Addr12)
  /-- `3xkk`, R104 -/
  | seVxKk (x : Nibble) (kk : Byte)
  /-- `4xkk`, R105 -/
  | sneVxKk (x : Nibble) (kk : Byte)
  /-- `5xy0`, R106 -/
  | seVxVy (x y : Nibble)
  /-- `6xkk`, R111 -/
  | ldVxKk (x : Nibble) (kk : Byte)
  /-- `7xkk`, R113 -/
  | addVxKk (x : Nibble) (kk : Byte)
  /-- `8xy0`, R112 -/
  | ldVxVy (x y : Nibble)
  /-- `8xy1`, R114 -/
  | orVxVy (x y : Nibble)
  /-- `8xy2`, R115 -/
  | andVxVy (x y : Nibble)
  /-- `8xy3`, R116 -/
  | xorVxVy (x y : Nibble)
  /-- `8xy4`, R117 -/
  | addVxVy (x y : Nibble)
  /-- `8xy5`, R118 -/
  | subVxVy (x y : Nibble)
  /-- `8xy6`, R120; `y` is decoded and ignored (R77), and kept so that a word has an exact round trip (R82) -/
  | shrVx (x y : Nibble)
  /-- `8xy7`, R119 -/
  | subnVxVy (x y : Nibble)
  /-- `8xyE`, R121; `y` as for `shrVx` -/
  | shlVx (x y : Nibble)
  /-- `9xy0`, R107 -/
  | sneVxVy (x y : Nibble)
  /-- `Annn`, R130 -/
  | ldI (nnn : Addr12)
  /-- `Bnnn`, R103 -/
  | jpV0 (nnn : Addr12)
  /-- `Cxkk`, R122 -/
  | rnd (x : Nibble) (kk : Byte)
  /-- `Dxyn`, R141 -/
  | drw (x y n : Nibble)
  /-- `Ex9E`, R150 -/
  | skp (x : Nibble)
  /-- `ExA1`, R151 -/
  | sknp (x : Nibble)
  /-- `Fx07`, R153 -/
  | ldVxDT (x : Nibble)
  /-- `Fx0A`, R152 -/
  | ldVxK (x : Nibble)
  /-- `Fx15`, R154 -/
  | ldDTVx (x : Nibble)
  /-- `Fx18`, R155 -/
  | ldSTVx (x : Nibble)
  /-- `Fx1E`, R131 -/
  | addIVx (x : Nibble)
  /-- `Fx29`, R132 -/
  | ldFVx (x : Nibble)
  /-- `Fx33`, R133 -/
  | ldBVx (x : Nibble)
  /-- `Fx55`, R134, `LD [I],Vx` -/
  | storeVx (x : Nibble)
  /-- `Fx65`, R135, `LD Vx,[I]` -/
  | loadVx (x : Nibble)
  deriving DecidableEq, Repr

end Sys2Proof
end

