-- ==== Sys2Proof/WellFormed.lean ====
section
/-! DEFINITION. Which instructions, program images and glyph tables are well formed. -/

namespace Sys2Proof

/-- An instruction is well formed when its operands are values its encoding admits. The fields' types already say so: "all
16 values are legal" for `x` and `y`, every `kk`, `nnn` and `n` is legal (R73), and the ignored `y` of the shifts may be
anything (R77). So no instruction is ill formed; the function lists the constructors so that a new one must be considered. -/
def Instr.wellFormed : Instr → Bool
  | .cls => true
  | .ret => true
  | .jp _ => true
  | .call _ => true
  | .seVxKk _ _ => true
  | .sneVxKk _ _ => true
  | .seVxVy _ _ => true
  | .ldVxKk _ _ => true
  | .addVxKk _ _ => true
  | .ldVxVy _ _ => true
  | .orVxVy _ _ => true
  | .andVxVy _ _ => true
  | .xorVxVy _ _ => true
  | .addVxVy _ _ => true
  | .subVxVy _ _ => true
  | .shrVx _ _ => true
  | .subnVxVy _ _ => true
  | .shlVx _ _ => true
  | .sneVxVy _ _ => true
  | .ldI _ => true
  | .jpV0 _ => true
  | .rnd _ _ => true
  | .drw _ _ _ => true
  | .skp _ => true
  | .sknp _ => true
  | .ldVxDT _ => true
  | .ldVxK _ => true
  | .ldDTVx _ => true
  | .ldSTVx _ => true
  | .addIVx _ => true
  | .ldFVx _ => true
  | .ldBVx _ => true
  | .storeVx _ => true
  | .loadVx _ => true

/-- An instruction in the one spelling `Encode` gives it "unless stated" otherwise: `SHR` and `SHL` with `y = 0` (R82). -/
def Instr.canonical : Instr → Bool
  | .shrVx _ y => y == 0#4
  | .shlVx _ y => y == 0#4
  | _ => true

/-- A program image fits above 0x200: at most 3584 = 4096 - 0x200 bytes (R5 MAX_PROG, R192). -/
def imageWellFormed (bytes : List Byte) : Bool := bytes.length ≤ 3584

/-- A glyph table has 16 glyphs of 5 bytes (R5, R6, R37). -/
def glyphsWellFormed (bytes : List Byte) : Bool := bytes.length == 80

end Sys2Proof
end

