-- ==== Sys2Proof/Decode.lean ====
section
/-! DEFINITION. The decoder and the encoder (30_encoding.md R70 to R83). -/

namespace Sys2Proof

/-! ### Nibbles and fields (R71) -/

/-- `n3 = op[15:12]` -/
def nib3 (w : Word) : Nibble := w.extractLsb' 12 4

/-- `n2 = op[11:8]`, the field `x` -/
def nib2 (w : Word) : Nibble := w.extractLsb' 8 4

/-- `n1 = op[7:4]`, the field `y` -/
def nib1 (w : Word) : Nibble := w.extractLsb' 4 4

/-- `n0 = op[3:0]`, the field `n` -/
def nib0 (w : Word) : Nibble := w.extractLsb' 0 4

/-- The word with these four nibbles, `n3` on the left. -/
def wordOf (n3 n2 n1 n0 : Nibble) : Word := n3 ++ n2 ++ n1 ++ n0

/-- `kk = (n1, n0)`, the low byte -/
def byteOf (n1 n0 : Nibble) : Byte := n1 ++ n0

/-- `nnn = (n2, n1, n0)`, the low 12 bits -/
def addrOf (n2 n1 n0 : Nibble) : Addr12 := n2 ++ n1 ++ n0

/-- The opcode of two fetched bytes, the first at the lower address: `(high << 8) | low` (R54). -/
def opcodeOf (hi lo : Byte) : Word := hi ++ lo

/-- The byte stored at the lower address (R70, R82). -/
def highByte (w : Word) : Byte := w.extractLsb' 8 8

/-- The byte stored at the higher address. -/
def lowByte (w : Word) : Byte := w.extractLsb' 0 8

/-! ### The opcode map (R75) -/

/-- One row of R75: its pattern, a fixed nibble or an operand nibble (`none`) at each place, and the instruction its operand
nibbles select. The first nibble is always fixed: it is the primary selector (R74). -/
structure OpcodeRow where
  fix3  : Nibble
  fix2  : Option Nibble
  fix1  : Option Nibble
  fix0  : Option Nibble
  build : Nibble → Nibble → Nibble → Instr

/-- An operand place takes any nibble, a fixed place only its own. -/
def nibbleFits (fixed : Option Nibble) (n : Nibble) : Bool :=
  match fixed with
  | none => true
  | some f => n == f

/-- A word selects a row when it agrees with the row's fixed nibbles (R75 `op & mask = match`). -/
def rowMatches (w : Word) (r : OpcodeRow) : Bool :=
  nib3 w == r.fix3 && nibbleFits r.fix2 (nib2 w) && nibbleFits r.fix1 (nib1 w) && nibbleFits r.fix0 (nib0 w)

/-- Formats FIXED and NNN (R72). -/
def addressRows : List OpcodeRow :=
  [ ⟨0x0#4, some 0x0#4, some 0xE#4, some 0x0#4, fun _ _ _ => .cls⟩,
    ⟨0x0#4, some 0x0#4, some 0xE#4, some 0xE#4, fun _ _ _ => .ret⟩,
    ⟨0x1#4, none, none, none, fun a b c => .jp (addrOf a b c)⟩,
    ⟨0x2#4, none, none, none, fun a b c => .call (addrOf a b c)⟩,
    ⟨0xA#4, none, none, none, fun a b c => .ldI (addrOf a b c)⟩,
    ⟨0xB#4, none, none, none, fun a b c => .jpV0 (addrOf a b c)⟩ ]

/-- Format XKK (R72). -/
def literalRows : List OpcodeRow :=
  [ ⟨0x3#4, none, none, none, fun x b c => .seVxKk x (byteOf b c)⟩,
    ⟨0x4#4, none, none, none, fun x b c => .sneVxKk x (byteOf b c)⟩,
    ⟨0x6#4, none, none, none, fun x b c => .ldVxKk x (byteOf b c)⟩,
    ⟨0x7#4, none, none, none, fun x b c => .addVxKk x (byteOf b c)⟩,
    ⟨0xC#4, none, none, none, fun x b c => .rnd x (byteOf b c)⟩ ]

/-- Formats XY and XYN (R72). -/
def registerRows : List OpcodeRow :=
  [ ⟨0x5#4, none, none, some 0x0#4, fun x y _ => .seVxVy x y⟩,
    ⟨0x9#4, none, none, some 0x0#4, fun x y _ => .sneVxVy x y⟩,
    ⟨0x8#4, none, none, some 0x0#4, fun x y _ => .ldVxVy x y⟩,
    ⟨0x8#4, none, none, some 0x1#4, fun x y _ => .orVxVy x y⟩,
    ⟨0x8#4, none, none, some 0x2#4, fun x y _ => .andVxVy x y⟩,
    ⟨0x8#4, none, none, some 0x3#4, fun x y _ => .xorVxVy x y⟩,
    ⟨0x8#4, none, none, some 0x4#4, fun x y _ => .addVxVy x y⟩,
    ⟨0x8#4, none, none, some 0x5#4, fun x y _ => .subVxVy x y⟩,
    ⟨0x8#4, none, none, some 0x6#4, fun x y _ => .shrVx x y⟩,
    ⟨0x8#4, none, none, some 0x7#4, fun x y _ => .subnVxVy x y⟩,
    ⟨0x8#4, none, none, some 0xE#4, fun x y _ => .shlVx x y⟩,
    ⟨0xD#4, none, none, none, fun x y n => .drw x y n⟩ ]

/-- Format X (R72). -/
def systemRows : List OpcodeRow :=
  [ ⟨0xE#4, none, some 0x9#4, some 0xE#4, fun x _ _ => .skp x⟩,
    ⟨0xE#4, none, some 0xA#4, some 0x1#4, fun x _ _ => .sknp x⟩,
    ⟨0xF#4, none, some 0x0#4, some 0x7#4, fun x _ _ => .ldVxDT x⟩,
    ⟨0xF#4, none, some 0x0#4, some 0xA#4, fun x _ _ => .ldVxK x⟩,
    ⟨0xF#4, none, some 0x1#4, some 0x5#4, fun x _ _ => .ldDTVx x⟩,
    ⟨0xF#4, none, some 0x1#4, some 0x8#4, fun x _ _ => .ldSTVx x⟩,
    ⟨0xF#4, none, some 0x1#4, some 0xE#4, fun x _ _ => .addIVx x⟩,
    ⟨0xF#4, none, some 0x2#4, some 0x9#4, fun x _ _ => .ldFVx x⟩,
    ⟨0xF#4, none, some 0x3#4, some 0x3#4, fun x _ _ => .ldBVx x⟩,
    ⟨0xF#4, none, some 0x5#4, some 0x5#4, fun x _ _ => .storeVx x⟩,
    ⟨0xF#4, none, some 0x6#4, some 0x5#4, fun x _ _ => .loadVx x⟩ ]

/-- The 34 rows of R75, grouped by format. Data, so that a corrected pattern changes this table and nothing else
(R75; UNVERIFIED, the spec's own decision D2, unsafe, log 2). -/
def opcodeTable : List OpcodeRow := addressRows ++ literalRows ++ registerRows ++ systemRows

/-- The match and mask columns of R75, row by row in its order. -/
def opcodeMap : List (Word × Word) :=
  [(0x00E0#16, 0xFFFF#16), (0x00EE#16, 0xFFFF#16), (0x1000#16, 0xF000#16), (0x2000#16, 0xF000#16), (0x3000#16, 0xF000#16), (0x4000#16, 0xF000#16), (0x5000#16, 0xF00F#16), (0x9000#16, 0xF00F#16), (0x6000#16, 0xF000#16)] ++
  [(0x8000#16, 0xF00F#16), (0x7000#16, 0xF000#16), (0x8001#16, 0xF00F#16), (0x8002#16, 0xF00F#16), (0x8003#16, 0xF00F#16), (0x8004#16, 0xF00F#16), (0x8005#16, 0xF00F#16), (0x8007#16, 0xF00F#16), (0x8006#16, 0xF00F#16)] ++
  [(0x800E#16, 0xF00F#16), (0xA000#16, 0xF000#16), (0xB000#16, 0xF000#16), (0xC000#16, 0xF000#16), (0xD000#16, 0xF000#16), (0xE09E#16, 0xF0FF#16), (0xE0A1#16, 0xF0FF#16), (0xF007#16, 0xF0FF#16), (0xF015#16, 0xF0FF#16)] ++
  [(0xF018#16, 0xF0FF#16), (0xF00A#16, 0xF0FF#16), (0xF01E#16, 0xF0FF#16), (0xF029#16, 0xF0FF#16), (0xF033#16, 0xF0FF#16), (0xF055#16, 0xF0FF#16), (0xF065#16, 0xF0FF#16)]

/-- The match and mask of an instruction's own row (R75): "a word `op` selects the row when `op & mask = match`". -/
def rowOf : Instr → Word × Word
  | .cls => (0x00E0#16, 0xFFFF#16)
  | .ret => (0x00EE#16, 0xFFFF#16)
  | .jp _ => (0x1000#16, 0xF000#16)
  | .call _ => (0x2000#16, 0xF000#16)
  | .seVxKk _ _ => (0x3000#16, 0xF000#16)
  | .sneVxKk _ _ => (0x4000#16, 0xF000#16)
  | .seVxVy _ _ => (0x5000#16, 0xF00F#16)
  | .ldVxKk _ _ => (0x6000#16, 0xF000#16)
  | .addVxKk _ _ => (0x7000#16, 0xF000#16)
  | .ldVxVy _ _ => (0x8000#16, 0xF00F#16)
  | .orVxVy _ _ => (0x8001#16, 0xF00F#16)
  | .andVxVy _ _ => (0x8002#16, 0xF00F#16)
  | .xorVxVy _ _ => (0x8003#16, 0xF00F#16)
  | .addVxVy _ _ => (0x8004#16, 0xF00F#16)
  | .subVxVy _ _ => (0x8005#16, 0xF00F#16)
  | .shrVx _ _ => (0x8006#16, 0xF00F#16)
  | .subnVxVy _ _ => (0x8007#16, 0xF00F#16)
  | .shlVx _ _ => (0x800E#16, 0xF00F#16)
  | .sneVxVy _ _ => (0x9000#16, 0xF00F#16)
  | .ldI _ => (0xA000#16, 0xF000#16)
  | .jpV0 _ => (0xB000#16, 0xF000#16)
  | .rnd _ _ => (0xC000#16, 0xF000#16)
  | .drw _ _ _ => (0xD000#16, 0xF000#16)
  | .skp _ => (0xE09E#16, 0xF0FF#16)
  | .sknp _ => (0xE0A1#16, 0xF0FF#16)
  | .ldVxDT _ => (0xF007#16, 0xF0FF#16)
  | .ldVxK _ => (0xF00A#16, 0xF0FF#16)
  | .ldDTVx _ => (0xF015#16, 0xF0FF#16)
  | .ldSTVx _ => (0xF018#16, 0xF0FF#16)
  | .addIVx _ => (0xF01E#16, 0xF0FF#16)
  | .ldFVx _ => (0xF029#16, 0xF0FF#16)
  | .ldBVx _ => (0xF033#16, 0xF0FF#16)
  | .storeVx _ => (0xF055#16, 0xF0FF#16)
  | .loadVx _ => (0xF065#16, 0xF0FF#16)

/-- `Decode(op)`, total on 16-bit words; `none` is the spec's `Unknown` (R74, R76). -/
def decodeWord (w : Word) : Option Instr :=
  (opcodeTable.find? (rowMatches w)).map fun r => r.build (nib2 w) (nib1 w) (nib0 w)

/-- `Decode` in R74's own nested form, for comparison with the table. -/
def decodeNested (w : Word) : Option Instr :=
  let x := nib2 w
  let y := nib1 w
  let kk := byteOf (nib1 w) (nib0 w)
  let nnn := addrOf (nib2 w) (nib1 w) (nib0 w)
  if nib3 w = 0x0#4 then
    if w = 0x00E0#16 then some .cls else if w = 0x00EE#16 then some .ret else none
  else if nib3 w = 0x1#4 then some (.jp nnn)
  else if nib3 w = 0x2#4 then some (.call nnn)
  else if nib3 w = 0x3#4 then some (.seVxKk x kk)
  else if nib3 w = 0x4#4 then some (.sneVxKk x kk)
  else if nib3 w = 0x5#4 then if nib0 w = 0x0#4 then some (.seVxVy x y) else none
  else if nib3 w = 0x6#4 then some (.ldVxKk x kk)
  else if nib3 w = 0x7#4 then some (.addVxKk x kk)
  else if nib3 w = 0x8#4 then
    if nib0 w = 0x0#4 then some (.ldVxVy x y)
    else if nib0 w = 0x1#4 then some (.orVxVy x y)
    else if nib0 w = 0x2#4 then some (.andVxVy x y)
    else if nib0 w = 0x3#4 then some (.xorVxVy x y)
    else if nib0 w = 0x4#4 then some (.addVxVy x y)
    else if nib0 w = 0x5#4 then some (.subVxVy x y)
    else if nib0 w = 0x6#4 then some (.shrVx x y)
    else if nib0 w = 0x7#4 then some (.subnVxVy x y)
    else if nib0 w = 0xE#4 then some (.shlVx x y)
    else none
  else if nib3 w = 0x9#4 then if nib0 w = 0x0#4 then some (.sneVxVy x y) else none
  else if nib3 w = 0xA#4 then some (.ldI nnn)
  else if nib3 w = 0xB#4 then some (.jpV0 nnn)
  else if nib3 w = 0xC#4 then some (.rnd x kk)
  else if nib3 w = 0xD#4 then some (.drw x y (nib0 w))
  else if nib3 w = 0xE#4 then
    if kk = 0x9E#8 then some (.skp x) else if kk = 0xA1#8 then some (.sknp x) else none
  else
    if kk = 0x07#8 then some (.ldVxDT x)
    else if kk = 0x0A#8 then some (.ldVxK x)
    else if kk = 0x15#8 then some (.ldDTVx x)
    else if kk = 0x18#8 then some (.ldSTVx x)
    else if kk = 0x1E#8 then some (.addIVx x)
    else if kk = 0x29#8 then some (.ldFVx x)
    else if kk = 0x33#8 then some (.ldBVx x)
    else if kk = 0x55#8 then some (.storeVx x)
    else if kk = 0x65#8 then some (.loadVx x)
    else none

/-- Why a sequence of bytes does not start with an instruction. -/
inductive DecodeError where
  /-- the word matches no row of R75 (R76) -/
  | unknownOpcode (w : Word)
  /-- fewer than two bytes are left (R70) -/
  | truncated
  deriving DecidableEq, Repr

/-- Decode the instruction at the head of a byte sequence and answer it with the bytes after it. Every instruction is two
bytes, high byte first (R54, R70). -/
def decode : List Byte → Except DecodeError (Instr × List Byte)
  | hi :: lo :: rest =>
    match decodeWord (opcodeOf hi lo) with
    | some i => .ok (i, rest)
    | none => .error (.unknownOpcode (opcodeOf hi lo))
  | _ => .error .truncated

/-- The two bytes of an instruction whose bits are `w`, as the machine stores them: the table numbers bit 0 as the least
significant bit of the one word, and the high byte lies at the lower address (R54; log 31). -/
def tableBytes (nbits w : Nat) : List Byte :=
  let op : Word := BitVec.ofNat 16 (w % 2 ^ nbits)
  [highByte op, lowByte op]

/-- The instruction the decoder reads from the word `w` of the opcode table. -/
def decodeTableWord (nbits w : Nat) : Option Instr :=
  match decode (tableBytes nbits w) with
  | .ok (i, _) => some i
  | .error _ => none

/-! ### The encoder (R82) -/

/-- Nibbles of the literal `kk`. -/
def byteHi (kk : Byte) : Nibble := kk.extractLsb' 4 4

/-- Low nibble of the literal `kk`. -/
def byteLo (kk : Byte) : Nibble := kk.extractLsb' 0 4

/-- A word of format NNN (R72). -/
def wordNNN (c : Nibble) (nnn : Addr12) : Word :=
  wordOf c (nnn.extractLsb' 8 4) (nnn.extractLsb' 4 4) (nnn.extractLsb' 0 4)

/-- A word of format XKK (R72). -/
def wordXKK (c x : Nibble) (kk : Byte) : Word := wordOf c x (byteHi kk) (byteLo kk)

/-- `Encode`: the fixed nibbles of R75 with the operands in their places (R82). -/
def encode : Instr → Word
  | .cls => wordOf 0x0#4 0x0#4 0xE#4 0x0#4
  | .ret => wordOf 0x0#4 0x0#4 0xE#4 0xE#4
  | .jp nnn => wordNNN 0x1#4 nnn
  | .call nnn => wordNNN 0x2#4 nnn
  | .seVxKk x kk => wordXKK 0x3#4 x kk
  | .sneVxKk x kk => wordXKK 0x4#4 x kk
  | .seVxVy x y => wordOf 0x5#4 x y 0x0#4
  | .ldVxKk x kk => wordXKK 0x6#4 x kk
  | .addVxKk x kk => wordXKK 0x7#4 x kk
  | .ldVxVy x y => wordOf 0x8#4 x y 0x0#4
  | .orVxVy x y => wordOf 0x8#4 x y 0x1#4
  | .andVxVy x y => wordOf 0x8#4 x y 0x2#4
  | .xorVxVy x y => wordOf 0x8#4 x y 0x3#4
  | .addVxVy x y => wordOf 0x8#4 x y 0x4#4
  | .subVxVy x y => wordOf 0x8#4 x y 0x5#4
  | .shrVx x y => wordOf 0x8#4 x y 0x6#4
  | .subnVxVy x y => wordOf 0x8#4 x y 0x7#4
  | .shlVx x y => wordOf 0x8#4 x y 0xE#4
  | .sneVxVy x y => wordOf 0x9#4 x y 0x0#4
  | .ldI nnn => wordNNN 0xA#4 nnn
  | .jpV0 nnn => wordNNN 0xB#4 nnn
  | .rnd x kk => wordXKK 0xC#4 x kk
  | .drw x y n => wordOf 0xD#4 x y n
  | .skp x => wordOf 0xE#4 x 0x9#4 0xE#4
  | .sknp x => wordOf 0xE#4 x 0xA#4 0x1#4
  | .ldVxDT x => wordOf 0xF#4 x 0x0#4 0x7#4
  | .ldVxK x => wordOf 0xF#4 x 0x0#4 0xA#4
  | .ldDTVx x => wordOf 0xF#4 x 0x1#4 0x5#4
  | .ldSTVx x => wordOf 0xF#4 x 0x1#4 0x8#4
  | .addIVx x => wordOf 0xF#4 x 0x1#4 0xE#4
  | .ldFVx x => wordOf 0xF#4 x 0x2#4 0x9#4
  | .ldBVx x => wordOf 0xF#4 x 0x3#4 0x3#4
  | .storeVx x => wordOf 0xF#4 x 0x5#4 0x5#4
  | .loadVx x => wordOf 0xF#4 x 0x6#4 0x5#4

/-- The two stored bytes of an instruction, the high byte at the lower address (R82). -/
def encodeBytes (i : Instr) : List Byte := [highByte (encode i), lowByte (encode i)]

end Sys2Proof
end

