-- ==== Sys2Proof/Config.lean ====
section
/-! DEFINITION. What an implementation fixes and what the spec leaves free (00_scope.md R5, R6; 92_eei_decisions.md, "Open parameters").

The fixed parameters of R5 are written as literals where they are used: 4096 bytes of memory, programs at 0x200 (so at most
3584 bytes), glyphs at 0x050 in steps of 5, 16 registers, 16 stack entries, 16 keys, a 64 by 32 screen.

The open parameters, GLYPHS included, have no body here, so no proof can see what they are and every claim holds for every
setting. The opcode table is data of Decode.lean (log 2). -/

namespace Sys2Proof

/-- The machine's GLYPHS (R6, R37): the 80 bytes that memory 0x050 to 0x09F holds at reset, any 80 bytes. DESIGN CHOICE, safe:
left free, so a claim is proved for every glyph set (D4, log 4). The spec's recommended default is `Machine.defaultGlyphs`. -/
opaque Config.glyphs : Vector Byte 80

/-- DRW_EDGE (R6, R142): what happens to a sprite pixel past the right or bottom edge. -/
inductive DrwEdge where
  | wrap
  | clip
  deriving DecidableEq, Repr, Inhabited

/-- KEY_PICK (R6, R152): which of several pressed keys `LD Vx,K` reports. -/
inductive KeyPick where
  | any
  | lowest
  | highest
  deriving DecidableEq, Repr, Inhabited

/-- PARTIAL_EFFECTS (R6, R171): what a failing multi-element instruction leaves in its destinations. -/
inductive PartialEffects where
  | any
  | ascending
  deriving DecidableEq, Repr, Inhabited

/-- The machine's DRW_EDGE. DESIGN CHOICE, safe: left free, so a claim is proved for both settings (D15, log 13). -/
opaque Config.drwEdge : DrwEdge

/-- The machine's KEY_PICK. DESIGN CHOICE, safe: left free (D20, log 17). -/
opaque Config.keyPick : KeyPick

/-- Under KEY_PICK = any, the number drawn at draw `n`: it selects one of the pressed keys (R152, log 17). Safe. -/
opaque Config.keyDraw : Nat → Nat

/-- The random byte of draw `n` (R122, D21, log 18). Safe: no claim can know it. -/
opaque Config.rnd : Nat → Byte

/-- The machine's PARTIAL_EFFECTS. DESIGN CHOICE, safe: left free (D22, log 20). -/
opaque Config.partialEffects : PartialEffects

/-- Under PARTIAL_EFFECTS = any, at draw `n`: whether destination element `k` (a byte or a register) of the failing
instruction took its new value (R171, log 20). Safe. -/
opaque Config.partialTaken : Nat → Nat → Bool

/-- Under PARTIAL_EFFECTS = any, at draw `n`: which of the eight pixels of sprite row `r` the failing DRW toggled, bit
`7 - c` for pixel `c` (R171, log 20). Safe. -/
opaque Config.partialPixels : Nat → Nat → Byte

/-- Under PARTIAL_EFFECTS = any, at draw `n`: what the failing DRW left in VF, `none` for the old value (R171, log 20). Safe. -/
opaque Config.partialFlag : Nat → Option Bool

/-- Under PARTIAL_EFFECTS = any, at draw `n`: whether the failing DRW set the redraw flag (R171, log 20). Safe. -/
opaque Config.partialRedraw : Nat → Bool

end Sys2Proof
end

