-- ==== Sys2Proof/Machine/Memory.lean ====
section
/-! DEFINITION. The 4096-byte memory (20_memory.md): its contents at reset, its canonical form, and the access primitives MemRead and MemWrite with the block accesses built from them. -/

namespace Sys2Proof.Machine

/-- Glyphs 0 to 7 of the default glyph set (10_state.md R37), five bytes each, top row first. -/
def glyphsLow : List Byte :=
  [0xF0, 0x90, 0x90, 0x90, 0xF0] ++ [0x20, 0x60, 0x20, 0x20, 0x70] ++
  [0xF0, 0x10, 0xF0, 0x80, 0xF0] ++ [0xF0, 0x10, 0xF0, 0x10, 0xF0] ++
  [0x90, 0x90, 0xF0, 0x10, 0x10] ++ [0xF0, 0x80, 0xF0, 0x10, 0xF0] ++
  [0xF0, 0x80, 0xF0, 0x90, 0xF0] ++ [0xF0, 0x10, 0x20, 0x40, 0x40]

/-- Glyphs 8 to F of the default glyph set (R37). -/
def glyphsHigh : List Byte :=
  [0xF0, 0x90, 0xF0, 0x90, 0xF0] ++ [0xF0, 0x90, 0xF0, 0x10, 0xF0] ++
  [0xF0, 0x90, 0xF0, 0x90, 0x90] ++ [0xE0, 0x90, 0xE0, 0x90, 0xE0] ++
  [0xF0, 0x80, 0x80, 0x80, 0xF0] ++ [0xE0, 0x90, 0x90, 0x90, 0xE0] ++
  [0xF0, 0x80, 0xF0, 0x80, 0xF0] ++ [0xF0, 0x80, 0xF0, 0x80, 0x80]

/-- The default the spec recommends for its open parameter GLYPHS (R6, R37). No meaning uses it: the machine's own glyph set
is `glyphs`. -/
def defaultGlyphs : Vector Byte 80 := ⟨(glyphsLow ++ glyphsHigh).toArray, by decide⟩

/-- The machine's GLYPHS: the open parameter, any 80 bytes (R6, D4, log 4). -/
def glyphs : Vector Byte 80 := Config.glyphs

/-- The byte at an address at reset, under GLYPHS `g`: the glyphs at 0x050 to 0x09F and 0 elsewhere (R36, 20_memory.md R53). -/
def resetByteOf (g : Vector Byte 80) (a : Nat) : Byte :=
  if h : 0x050 ≤ a ∧ a < 0x0A0 then g[a - 0x050]'(by omega) else 0#8

/-- What an address that memory does not list reads as: this machine's reset contents (R36). -/
def resetByte (a : Nat) : Byte := resetByteOf glyphs a

/-- The bytes that differ from the reset contents, by address, in the canonical form `Memory.wf`. -/
abbrev Memory := List Host.Cell

/-- The byte at an address (R52, R67). -/
def Memory.read : Memory → Nat → Byte
  | [], a => resetByte a
  | (b, v) :: m, a => if a = b then v else Memory.read m a

/-- Put a cell in front of a memory, unless it holds what the address reads as unlisted. -/
def Memory.cons (a : Nat) (v : Byte) (m : Memory) : Memory :=
  if v = resetByte a then m else (a, v) :: m

/-- Change exactly one byte (R52), keeping the canonical form. -/
def Memory.write : Memory → Nat → Byte → Memory
  | [], a, v => Memory.cons a v []
  | (b, w) :: m, a, v =>
    if a < b then Memory.cons a v ((b, w) :: m)
    else if a = b then Memory.cons a v m
    else (b, w) :: Memory.write m a v

/-- Addresses rise strictly from `lo` on, stay below 4096, and no cell holds what its address reads as unlisted. -/
def Memory.wfFrom (lo : Nat) : Memory → Bool
  | [] => true
  | (a, v) :: m => decide (lo ≤ a) && decide (a < 4096) && decide (v ≠ resetByte a) && Memory.wfFrom (a + 1) m

/-- The canonical form: equal memories are equal lists. -/
def Memory.wf (m : Memory) : Bool := Memory.wfFrom 0 m

/-! ### The access primitives (R52). `none` is `raise OutOfBounds`. Addresses are natural numbers, never reduced (R56, log 22). -/

/-- `MemRead(addr, 1)` -/
def memRead (m : Memory) (a : Nat) : Option Byte :=
  if a < 4096 then some (Memory.read m a) else none

/-- `MemWrite(addr, 1, v)` -/
def memWrite (m : Memory) (a : Nat) (v : Byte) : Option Memory :=
  if a < 4096 then some (Memory.write m a v) else none

/-- `n` bytes at ascending addresses from `a`, each by MemRead (R55, R59). -/
def loadBlock (m : Memory) : Nat → Nat → Option (List Byte)
  | _, 0 => some []
  | a, n + 1 =>
    match memRead m a with
    | none => none
    | some b => (loadBlock m (a + 1) n).map fun bs => b :: bs

/-- Store bytes at ascending addresses from `a`, each by MemWrite (R55, R59). -/
def storeBlock (m : Memory) : Nat → List Byte → Option Memory
  | _, [] => some m
  | a, b :: bs =>
    match memWrite m a b with
    | none => none
    | some m' => storeBlock m' (a + 1) bs

/-! ### What a block access that fails part-way leaves (60_exceptions.md R171) -/

/-- The bytes read before the first MemRead that raises, `n` at most. -/
def loadPrefix (m : Memory) : Nat → Nat → List Byte
  | _, 0 => []
  | a, n + 1 =>
    match memRead m a with
    | none => []
    | some b => b :: loadPrefix m (a + 1) n

/-- Memory after a store that stops at the first MemWrite that raises: element `k`, `k + 1`, ... of the bytes is written
where `take` says so and keeps its old value where not. -/
def storePrefix (take : Nat → Bool) (m : Memory) : Nat → Nat → List Byte → Memory
  | _, _, [] => m
  | a, k, b :: bs =>
    match memWrite m a b with
    | none => m
    | some m' => storePrefix take (if take k then m' else m) (a + 1) (k + 1) bs

/-- Under PARTIAL_EFFECTS `p`, at draw `n`: whether in-range destination element `k` holds its new value (R171, log 20). -/
def partialTake (p : PartialEffects) (n k : Nat) : Bool :=
  match p with
  | .any => Config.partialTaken n k
  | .ascending => true

end Sys2Proof.Machine
end

