-- ==== Sys2Proof/Machine/State.lean ====
section
/-! DEFINITION. The whole state of the machine (10_state.md R20), the reasons a host operation or a step can stop, and the state after reset (R36). -/

namespace Sys2Proof.Machine

/-- The error kinds (60_exceptions.md R160). The first four are raised by a step and latched in `err`; the fifth is a result
of `LoadProgram` and never latched (R33, R165). -/
inductive ErrorKind where
  /-- raised by the decode phase of a step (R161) -/
  | unknownOpcode
  /-- raised by `CALL` with a full stack (R162) -/
  | stackOverflow
  /-- raised by `RET` with an empty stack (R163) -/
  | stackUnderflow
  /-- raised by the fetch, by `DRW`, `LD B`, `LD [I],Vx`, `LD Vx,[I]`, `SKP` and `SKNP` (R164) -/
  | outOfBounds
  /-- reported by `LoadProgram` (R165) -/
  | programTooLarge
  deriving DecidableEq, Repr

/-- The sixteen V registers (R21). -/
abbrev RegFile := Vector Byte 16

/-- 32 rows of 64 pixels; bit `x` of row `y` is the pixel at column `x` (R31, log 5). -/
abbrev Screen := Vector (BitVec 64) 32

/-- The state aggregate, "Nothing else is state" (R20); only `draws` is the model's own. -/
structure State where
  /-- memory (R50) -/
  mem : Memory
  /-- V0 to VF (R21) -/
  V : RegFile
  /-- the index register (R23) -/
  I : Word
  /-- the program counter (R24) -/
  pc : Word
  /-- the call stack (R26) -/
  stack : Vector Word 16
  /-- the number of stack entries in use, 0 to 16 (R27, log 7) -/
  sp : Fin 17
  /-- the delay timer (R28) -/
  DT : Byte
  /-- the sound timer (R29) -/
  ST : Byte
  /-- the keypad, bit `k` for key `k` (R30) -/
  keys : Word
  /-- the framebuffer (R31) -/
  FB : Screen
  /-- the "needs redraw" flag (R32) -/
  redraw : Bool
  /-- the error latch; `none` is the spec's `None` (R33) -/
  err : Option ErrorKind
  /-- THE MODEL'S OWN: how many free draws have been taken, the argument of the opaque constants of Config (log 19) -/
  draws : Nat
  deriving DecidableEq, Repr

/-- Why an operation ends without a next state. No step does: the four step errors are taken as next states with `err` set
(R170, log 1). -/
inductive Fault where
  /-- Raised by the host operation `LoadProgram` alone, on an image longer than 3584 bytes: nothing is written and the
  machine stays as it was (R165, R192, log 24). Safe: the spec names this very result. -/
  | programTooLarge
  deriving DecidableEq, Repr

/-- Why an instruction has no meaning. "There is no refusal inside this hardware's own rules" (R42): no arm of exec and no
meaning answers with one. -/
inductive Refusal where
  /-- An instruction without a meaning, by its mnemonic in the opcode table. Raised by nobody: every instruction has its
  meaning. Safe. -/
  | notModelled (mnemonic : String)
  deriving DecidableEq, Repr

/-- The machine right after reset (R36, R190): memory at its reset contents with
the open GLYPHS at 0x050, `pc` at 0x200, everything else zero, no error. -/
def State.reset : State where
  mem := []
  V := Vector.replicate 16 0#8
  I := 0#16
  pc := 0x200#16
  stack := Vector.replicate 16 0#16
  sp := 0
  DT := 0#8
  ST := 0#8
  keys := 0#16
  FB := Vector.replicate 32 0#64
  redraw := false
  err := none
  draws := 0

end Sys2Proof.Machine
end

