-- ==== Sys2Proof/Machine/Ops.lean ====
section
/-! DEFINITION. The named operations on the state: registers, program counter, call stack, error entry, timers, free draws. -/

namespace Sys2Proof.Machine

/-! ### Registers (10_state.md R21, R23) -/

/-- `V[i]` (R11) -/
def State.reg (s : State) (i : Nibble) : Byte := s.V[i.toNat]

/-- `V[i] <- v` -/
def State.setReg (s : State) (i : Nibble) (v : Byte) : State := { s with V := s.V.set i.toNat v }

/-- `I <- v` -/
def State.setIndex (s : State) (v : Word) : State := { s with I := v }

/-- The registers `V[k]`, `V[k + 1]`, ... take the bytes, where `take` says so (R135; R171 for a failing load). -/
def setRegsFrom (take : Nat → Bool) (v : RegFile) : Nat → List Byte → RegFile
  | _, [] => v
  | k, b :: bs => setRegsFrom take (if take k then v.setIfInBounds k b else v) (k + 1) bs

/-! ### The program counter (00_scope.md R13, 10_state.md R24) -/

/-- `pc <- target` -/
def State.jumpTo (s : State) (target : Word) : State := { s with pc := target }

/-- `npc = pc + 2` (R11); it cannot pass 0xFFFF in a step (R25, log 30) -/
def State.npc (s : State) : Word := s.pc + 2#16

/-- `pc <- npc`, the normal advance -/
def State.advance (s : State) : State := s.jumpTo s.npc

/-- `pc <- npc + 2` when the condition holds, else `pc <- npc` -/
def State.skipIf (s : State) (c : Bool) : State := s.jumpTo (if c then s.npc + 2#16 else s.npc)

/-! ### The call stack (10_state.md R26, R27) -/

/-- Push: `stack[sp] <- v; sp <- sp + 1`, allowed when `sp < 16`; `none` on a full stack. -/
def State.push (s : State) (v : Word) : Option State :=
  if h : s.sp.val < 16 then some { s with stack := s.stack.set s.sp.val v, sp := ⟨s.sp.val + 1, by omega⟩ } else none

/-- Pop: `sp <- sp - 1; v <- stack[sp]`, allowed when `sp > 0`; the popped entry keeps its value. `none` on an empty stack. -/
def State.pop (s : State) : Option (Word × State) :=
  if h : 0 < s.sp.val then
    some (s.stack[s.sp.val - 1]'(by have := s.sp.isLt; omega), { s with sp := ⟨s.sp.val - 1, by have := s.sp.isLt; omega⟩ })
  else none

/-! ### Taking an error (60_exceptions.md R170) -/

/-- Error entry: `err <- E`. Nothing else changes here: `pc` keeps the address of the failing instruction, the timer phase
will not run, nothing is saved and control goes nowhere. The halted machine is left by `Reset` alone (R172, R173), so there
is no return beside it. -/
def State.raise (s : State) (e : ErrorKind) : State := { s with err := some e }

/-- A machine with an error latched is halted (R172). -/
def State.halted (s : State) : Bool := s.err.isSome

/-! ### The timer phase (60_exceptions.md R176) -/

/-- One tick of a timer: "clamped at 0" (R28). -/
def tickDown (t : Byte) : Byte := if t = 0#8 then 0#8 else t - 1#8

/-- Both timers tick. -/
def State.tick (s : State) : State := { s with DT := tickDown s.DT, ST := tickDown s.ST }

/-- Phase 5 of a step: both timers tick, unless the instruction raised an error (R40, R170, R176). -/
def State.timerPhase (s : State) : State := if s.halted then s else s.tick

/-! ### Free draws (R34, R122; log 19) -/

/-- The draw just taken is used up. -/
def State.nextDraw (s : State) : State := { s with draws := s.draws + 1 }

end Sys2Proof.Machine
end

