-- ==== Sys2Proof/Machine/Cycle.lean ====
section
/-! DEFINITION. The phases of a step around the instruction: fetch and decode before it, the timers after it (10_state.md R40). -/

namespace Sys2Proof.Machine

/-- Phase 1: the two bytes at `pc` and `pc + 1`, high byte first; `none` is `raise OutOfBounds`, made before either byte is
read (R40, 20_memory.md R54, R56). -/
def State.fetch (s : State) : Option (List Byte) :=
  if 4096 ≤ s.pc.toNat + 1 then none
  else some [Memory.read s.mem s.pc.toNat, Memory.read s.mem (s.pc.toNat + 1)]

/-- Phases 1 and 2: the instruction of this step, or the error the fetch or the decode raises, in that order (R40, R167). -/
def State.fetchDecode (s : State) : Except ErrorKind Instr :=
  match s.fetch with
  | none => .error .outOfBounds
  | some bytes =>
    match decode bytes with
    | .ok (i, _) => .ok i
    | .error _ => .error .unknownOpcode

/-- Phase 5 on an outcome: the timers of a next state tick, unless an error was raised (R40, R170, R176). -/
def finishStep (o : Host.Outcome State Fault Refusal) : Host.Outcome State Fault Refusal :=
  match o with
  | .next t => .next t.timerPhase
  | .fault r => .fault r
  | .refused r => .refused r

/-- The two bytes of an instruction put where the next fetch reads them, as far as memory reaches (log 25). -/
def State.placeAtPc (s : State) (bytes : List Byte) : State :=
  { s with mem := storePrefix (fun _ => true) s.mem s.pc.toNat 0 bytes }

end Sys2Proof.Machine
end

