-- ==== Sys2Proof/Machine/Operands.lean ====
section
/-! DEFINITION. The operand forms (30_encoding.md R73; 42_index_and_memory.md, "Addressing"; 44_keypad_and_timers.md). -/

namespace Sys2Proof.Machine

/-- `zext_16(nnn)`: a 12-bit address used as it stands (R73). -/
def addrOperand (nnn : Addr12) : Word := nnn.setWidth 16

/-- `zext_16(V[x])` (R103, R131, R132). -/
def byteOperand (b : Byte) : Word := b.setWidth 16

/-- The data address `I` as a natural number; `I + k` is formed without wrap (20_memory.md R56). -/
def State.dataAddr (s : State) : Nat := s.I.toNat

/-- `V[0]` to `V[x]`, inclusive (R134). -/
def State.regBlock (s : State) (x : Nibble) : List Byte := s.V.toList.take (x.toNat + 1)

/-- The glyph address `0x050 + 5 * zext_16(V[x])`: the whole byte, not masked (R132). -/
def glyphAddr (v : Byte) : Word := 0x050#16 + 5#16 * byteOperand v

/-- Hundreds, tens and ones of a byte, each a number 0 to 9 (R133). -/
def decimalDigits (v : Byte) : List Byte :=
  [BitVec.ofNat 8 (v.toNat / 100), BitVec.ofNat 8 (v.toNat / 10 % 10), BitVec.ofNat 8 (v.toNat % 10)]

/-- `keys[k]`; keys beyond 15 do not exist (R30). -/
def keyDown (keys : Word) (k : Nat) : Bool := keys.getLsbD k

/-- The numbers of the pressed keys, ascending (R30). -/
def pressedKeys (keys : Word) : List Nat :=
  [0, 1, 2, 3, 4, 5, 6, 7, 8, 9, 10, 11, 12, 13, 14, 15].filter (keyDown keys)

/-- `Pick(keys)` under KEY_PICK `p` at draw `n`; `none` when no key is down. With exactly one key down every setting gives
that key; with several, `lowest` the least, `highest` the greatest, `any` one of them by the free draw (R152, log 17). -/
def pickKey (p : KeyPick) (n : Nat) (keys : Word) : Option Nat :=
  match pressedKeys keys with
  | [] => none
  | [k] => some k
  | k :: ks =>
    match p with
    | .lowest => some k
    | .highest => (k :: ks).getLast?
    | .any => (k :: ks)[Config.keyDraw n % (k :: ks).length]?

end Sys2Proof.Machine
end

