-- ==== Sys2Proof/Machine/ControlFlow.lean ====
section
/-! DEFINITION. Control-flow instructions (40_control_flow.md R100 to R107). -/

namespace Sys2Proof.Machine

/-- What a meaning answers. Every meaning answers a next state (R42, log 1). -/
abbrev Result := Host.Outcome State Fault Refusal

/-- `RET` (R100): pop into `pc`; an empty stack raises StackUnderflow before anything changes. -/
def execRet (s : State) : Result :=
  match s.pop with
  | none => .next (s.raise .stackUnderflow)
  | some (v, s') => .next (s'.jumpTo v)

/-- `JP addr` (R101). -/
def execJp (nnn : Addr12) (s : State) : Result := .next (s.jumpTo (addrOperand nnn))

/-- `CALL addr` (R102): push `npc`, then jump; a full stack raises StackOverflow before anything changes. -/
def execCall (nnn : Addr12) (s : State) : Result :=
  match s.push s.npc with
  | none => .next (s.raise .stackOverflow)
  | some s' => .next (s'.jumpTo (addrOperand nnn))

/-- `JP V0,addr` (R103): the sum is 16 bits wide and not reduced to 12. -/
def execJpV0 (nnn : Addr12) (s : State) : Result :=
  .next (s.jumpTo (byteOperand (s.reg 0#4) + addrOperand nnn))

/-- `SE Vx,kk` (R104). -/
def execSeVxKk (x : Nibble) (kk : Byte) (s : State) : Result := .next (s.skipIf (decide (s.reg x = kk)))

/-- `SNE Vx,kk` (R105). -/
def execSneVxKk (x : Nibble) (kk : Byte) (s : State) : Result := .next (s.skipIf (decide (s.reg x ≠ kk)))

/-- `SE Vx,Vy` (R106). -/
def execSeVxVy (x y : Nibble) (s : State) : Result := .next (s.skipIf (decide (s.reg x = s.reg y)))

/-- `SNE Vx,Vy` (R107). -/
def execSneVxVy (x y : Nibble) (s : State) : Result := .next (s.skipIf (decide (s.reg x ≠ s.reg y)))

end Sys2Proof.Machine
end

