-- ==== Sys2Proof/Machine/Flags.lean ====
section
/-! DEFINITION. The flag carrier VF and every flag the spec computes (10_state.md R22, 41_load_and_alu.md R110). -/

namespace Sys2Proof.Machine

/-- `VF` is `V[0xF]` (R22). -/
def vf : Nibble := 0xF#4

/-- A flag's value as VF holds it: 1 or 0. -/
def flagByte (b : Bool) : Byte := if b then 1#8 else 0#8

/-- `VF <- flag` -/
def State.setFlag (s : State) (b : Bool) : State := s.setReg vf (flagByte b)

/-- Carry of `ADD Vx,Vy`: the true sum exceeds 255 (R110, R117). -/
def carryOut (a b : Byte) : Bool := decide (255 < a.toNat + b.toNat)

/-- The flag of `SUB` and `SUBN`: the minuend is strictly greater, unsigned (R110, R118, R119). -/
def greater (a b : Byte) : Bool := decide (b.toNat < a.toNat)

/-- The bit `SHR` shifts out, `V[x] & 1` (R120). -/
def lowBit (a : Byte) : Bool := a.getLsbD 0

/-- The bit `SHL` shifts out, `(V[x] & 0x80) >> 7` (R121). -/
def highBit (a : Byte) : Bool := a.getLsbD 7

end Sys2Proof.Machine
end

