-- ==== Sys2Proof/Machine/Display.lean ====
section
/-! DEFINITION. Display instructions (43_display.md R140 to R142). -/

namespace Sys2Proof.Machine

/-- The pixel `FB[y][x]` (R31). -/
def pixelAt (fb : Screen) (x : Fin 64) (y : Fin 32) : Bool := fb[y].getLsbD x

/-- `FB[y][x] <- FB[y][x] xor 1` -/
def togglePixel (fb : Screen) (x : Fin 64) (y : Fin 32) : Screen := fb.set y (fb[y] ^^^ BitVec.twoPow 64 x)

/-- `Place(cx, cy)` (R142): the pixel a sprite pixel falls on, or none. -/
def place (edge : DrwEdge) (cx cy : Nat) : Option (Fin 64 × Fin 32) :=
  if h : cx < 64 ∧ cy < 32 then some (⟨cx, h.1⟩, ⟨cy, h.2⟩)
  else
    match edge with
    | .wrap => some (⟨cx % 64, Nat.mod_lt _ (by decide)⟩, ⟨cy % 32, Nat.mod_lt _ (by decide)⟩)
    | .clip => none

/-- Draw one sprite bit that is 1: toggle its pixel, and note a collision when the pixel was lit (R141). -/
def plot (edge : DrwEdge) (cx cy : Nat) (canvas : Screen × Bool) : Screen × Bool :=
  match place edge cx cy with
  | none => canvas
  | some (px, py) => (togglePixel canvas.1 px py, canvas.2 || pixelAt canvas.1 px py)

/-- Draw the columns `cols` of one sprite row; bit `7 - c` is the pixel at column `x0 + c` (R141, D16, log 14). -/
def drawColumns (edge : DrwEdge) (x0 cy : Nat) (b : Byte) : List Nat → Screen × Bool → Screen × Bool
  | [], canvas => canvas
  | c :: cs, canvas =>
    drawColumns edge x0 cy b cs (if b.getLsbD (7 - c) then plot edge (x0 + c) cy canvas else canvas)

/-- Draw sprite rows downward from row `cy` (R141). -/
def drawRows (edge : DrwEdge) (x0 : Nat) : Nat → List Byte → Screen × Bool → Screen × Bool
  | _, [], canvas => canvas
  | cy, b :: bs, canvas => drawRows edge x0 (cy + 1) bs (drawColumns edge x0 cy b [0, 1, 2, 3, 4, 5, 6, 7] canvas)

/-- The sprite with these rows drawn at `(vx mod 64, vy mod 32)`: the new screen and whether a pixel went from lit to unlit. -/
def drawSprite (edge : DrwEdge) (vx vy : Byte) (rows : List Byte) (fb : Screen) : Screen × Bool :=
  drawRows edge (vx.toNat % 64) (vy.toNat % 32) rows (fb, false)

/-- Under PARTIAL_EFFECTS `p`, at draw `n`: the sprite rows a failing DRW drew, row `k` first. A pixel the sprite would toggle
is toggled or not, each on its own, under `any`; every row in range is drawn whole under `ascending` (R171, log 20). -/
def partialRows (p : PartialEffects) (n : Nat) : Nat → List Byte → List Byte
  | _, [] => []
  | k, b :: bs =>
    (match p with
      | .any => b &&& Config.partialPixels n k
      | .ascending => b) :: partialRows p n (k + 1) bs

/-- What a failing DRW leaves in VF: the old value, 0 or 1 under `any`, the old value under `ascending` (R171). -/
def partialVF (p : PartialEffects) (n : Nat) (old : Byte) : Byte :=
  match p with
  | .any =>
    match Config.partialFlag n with
    | none => old
    | some b => flagByte b
  | .ascending => old

/-- What a failing DRW leaves in the redraw flag: the old value or 1 under `any`, the old value under `ascending` (R171). -/
def partialRedraw (p : PartialEffects) (n : Nat) (old : Bool) : Bool :=
  match p with
  | .any => old || Config.partialRedraw n
  | .ascending => old

/-- A DRW whose sprite lies in memory whole (R141): pixels, then VF, then the redraw flag, then the advance. -/
def drawWhole (edge : DrwEdge) (vx vy : Byte) (rows : List Byte) (s : State) : State :=
  let canvas := drawSprite edge vx vy rows s.FB
  { { s with FB := canvas.1 }.setFlag canvas.2 with redraw := true }.advance

/-- A DRW that fails part-way (R141, R171): the rows in range are `rows`. -/
def drawPart (p : PartialEffects) (edge : DrwEdge) (vx vy : Byte) (rows : List Byte) (s : State) : State :=
  let canvas := drawSprite edge vx vy (partialRows p s.draws 0 rows) s.FB
  { { s with FB := canvas.1 }.setReg vf (partialVF p s.draws (s.reg vf)) with
    redraw := partialRedraw p s.draws s.redraw }.nextDraw.raise .outOfBounds

/-- `CLS` (R140): every pixel 0, the redraw flag set (D18, log 15). -/
def execCls (s : State) : Result :=
  .next { s with FB := Vector.replicate 32 0#64, redraw := true }.advance

/-- `DRW Vx,Vy,n` (R141): both coordinates are read before anything is written. -/
def execDrw (x y n : Nibble) (s : State) : Result :=
  match loadBlock s.mem s.dataAddr n.toNat with
  | some rows => .next (drawWhole Config.drwEdge (s.reg x) (s.reg y) rows s)
  | none =>
    .next (drawPart Config.partialEffects Config.drwEdge (s.reg x) (s.reg y) (loadPrefix s.mem s.dataAddr n.toNat) s)

end Sys2Proof.Machine
end

