-- ==== Sys2Proof/Machine/IndexMemory.lean ====
section
/-! DEFINITION. Index-register and memory instructions (42_index_and_memory.md R130 to R135). No load or store changes `I` (D13, log 11). -/

namespace Sys2Proof.Machine

/-- `LD I,addr` (R130). -/
def execLdI (nnn : Addr12) (s : State) : Result := .next (s.setIndex (addrOperand nnn)).advance

/-- `ADD I,Vx` (R131): wraps modulo 65536, no flag, no error (D14, log 12). -/
def execAddIVx (x : Nibble) (s : State) : Result := .next (s.setIndex (s.I + byteOperand (s.reg x))).advance

/-- `LD F,Vx` (R132). -/
def execLdFVx (x : Nibble) (s : State) : Result := .next (s.setIndex (glyphAddr (s.reg x))).advance

/-- Store bytes from `I` upward and advance; when a MemWrite raises, OutOfBounds is taken with each in-range byte old or new
under PARTIAL_EFFECTS `p` (R133, R134, R171, log 20). -/
def storeThrough (p : PartialEffects) (bytes : List Byte) (s : State) : State :=
  match storeBlock s.mem s.dataAddr bytes with
  | some m => { s with mem := m }.advance
  | none => { s with mem := storePrefix (partialTake p s.draws) s.mem s.dataAddr 0 bytes }.nextDraw.raise .outOfBounds

/-- Load V0 to Vx from `I` upward and advance; when a MemRead raises, OutOfBounds is taken with each register whose byte is
in range old or new under PARTIAL_EFFECTS `p` (R135, R171, log 20). -/
def loadThrough (p : PartialEffects) (x : Nibble) (s : State) : State :=
  match loadBlock s.mem s.dataAddr (x.toNat + 1) with
  | some bytes => { s with V := setRegsFrom (fun _ => true) s.V 0 bytes }.advance
  | none =>
    { s with V := setRegsFrom (partialTake p s.draws) s.V 0 (loadPrefix s.mem s.dataAddr (x.toNat + 1)) }.nextDraw.raise .outOfBounds

/-- `LD B,Vx` (R133). -/
def execLdBVx (x : Nibble) (s : State) : Result :=
  .next (storeThrough Config.partialEffects (decimalDigits (s.reg x)) s)

/-- `LD [I],Vx` (R134). -/
def execStoreVx (x : Nibble) (s : State) : Result :=
  .next (storeThrough Config.partialEffects (s.regBlock x) s)

/-- `LD Vx,[I]` (R135). -/
def execLoadVx (x : Nibble) (s : State) : Result := .next (loadThrough Config.partialEffects x s)

end Sys2Proof.Machine
end

