-- ==== Sys2Proof/Machine/LoadAlu.lean ====
section
/-! DEFINITION. Register load, arithmetic, logic, shift and random instructions (41_load_and_alu.md R110 to R122). Statements run in the order the rules write them, each on the registers the one before it left (R12; UNVERIFIED, the spec's own decision D11, unsafe where x or y is 0xF, log 9). -/

namespace Sys2Proof.Machine

/-- `V[x] <- v; pc <- npc` -/
def State.write (s : State) (x : Nibble) (v : Byte) : State := (s.setReg x v).advance

/-- `LD Vx,kk` (R111). -/
def execLdVxKk (x : Nibble) (kk : Byte) (s : State) : Result := .next (s.write x kk)

/-- `LD Vx,Vy` (R112). -/
def execLdVxVy (x y : Nibble) (s : State) : Result := .next (s.write x (s.reg y))

/-- `ADD Vx,kk` (R113): wraps modulo 256, no flag. -/
def execAddVxKk (x : Nibble) (kk : Byte) (s : State) : Result := .next (s.write x (s.reg x + kk))

/-- `OR Vx,Vy` (R114): VF is not touched. -/
def execOrVxVy (x y : Nibble) (s : State) : Result := .next (s.write x (s.reg x ||| s.reg y))

/-- `AND Vx,Vy` (R115): VF is not touched. -/
def execAndVxVy (x y : Nibble) (s : State) : Result := .next (s.write x (s.reg x &&& s.reg y))

/-- `XOR Vx,Vy` (R116): VF is not touched. -/
def execXorVxVy (x y : Nibble) (s : State) : Result := .next (s.write x (s.reg x ^^^ s.reg y))

/-- `ADD Vx,Vy` (R117): both operands are read first, then VF takes the carry, then `V[x]` the sum. -/
def execAddVxVy (x y : Nibble) (s : State) : Result :=
  let a := s.reg x
  let b := s.reg y
  .next ((s.setFlag (carryOut a b)).write x (a + b))

/-- `SUB Vx,Vy` (R118): the subtraction reads the registers after VF was written. -/
def execSubVxVy (x y : Nibble) (s : State) : Result :=
  let s' := s.setFlag (greater (s.reg x) (s.reg y))
  .next (s'.write x (s'.reg x - s'.reg y))

/-- `SUBN Vx,Vy` (R119): the subtraction reads the registers after VF was written. -/
def execSubnVxVy (x y : Nibble) (s : State) : Result :=
  let s' := s.setFlag (greater (s.reg y) (s.reg x))
  .next (s'.write x (s'.reg y - s'.reg x))

/-- `SHR Vx` (R120): the `y` field is ignored (R77); the shift reads `V[x]` after VF was written. -/
def execShrVx (x _y : Nibble) (s : State) : Result :=
  let s' := s.setFlag (lowBit (s.reg x))
  .next (s'.write x (s'.reg x >>> 1))

/-- `SHL Vx` (R121): the `y` field is ignored (R77); the shift reads `V[x]` after VF was written. -/
def execShlVx (x _y : Nibble) (s : State) : Result :=
  let s' := s.setFlag (highBit (s.reg x))
  .next (s'.write x (s'.reg x <<< 1))

/-- `RND Vx,kk` (R122): a fresh free byte, masked (log 18). -/
def execRnd (x : Nibble) (kk : Byte) (s : State) : Result :=
  .next (s.nextDraw.write x (kk &&& Config.rnd s.draws))

end Sys2Proof.Machine
end

