-- ==== Sys2Proof/Machine/KeypadTimers.lean ====
section
/-! DEFINITION. Keypad and timer instructions (44_keypad_and_timers.md R150 to R155). The timer phase of the same step follows each of them (Machine/Cycle.lean). -/

namespace Sys2Proof.Machine

/-- `SKP Vx` (R150): a key number above 15 raises OutOfBounds (D19, log 16). -/
def execSkp (x : Nibble) (s : State) : Result :=
  let k := (s.reg x).toNat
  if 15 < k then .next (s.raise .outOfBounds) else .next (s.skipIf (keyDown s.keys k))

/-- `SKNP Vx` (R151): a key number above 15 raises OutOfBounds (D19, log 16). -/
def execSknp (x : Nibble) (s : State) : Result :=
  let k := (s.reg x).toNat
  if 15 < k then .next (s.raise .outOfBounds) else .next (s.skipIf (!keyDown s.keys k))

/-- `LD Vx,K` under KEY_PICK `p` (R152): with no key down nothing changes, `pc` included; else `V[x]` takes the number of a
pressed key. -/
def waitKey (p : KeyPick) (x : Nibble) (s : State) : State :=
  match pickKey p s.draws s.keys with
  | none => s
  | some k => s.nextDraw.write x (BitVec.ofNat 8 k)

/-- `LD Vx,K` (R152). -/
def execLdVxK (x : Nibble) (s : State) : Result := .next (waitKey Config.keyPick x s)

/-- `LD Vx,DT` (R153). -/
def execLdVxDT (x : Nibble) (s : State) : Result := .next (s.write x s.DT)

/-- `LD DT,Vx` (R154). -/
def execLdDTVx (x : Nibble) (s : State) : Result := .next { s with DT := s.reg x }.advance

/-- `LD ST,Vx` (R155). -/
def execLdSTVx (x : Nibble) (s : State) : Result := .next { s with ST := s.reg x }.advance

end Sys2Proof.Machine
end

