-- ==== Sys2Proof/Machine/Step.lean ====
section
/-! DEFINITION. One step of the core (10_state.md R40), and the placing of an instruction where it will be fetched. -/

namespace Sys2Proof.Machine

/-- `Step` (R40): a halted machine changes nothing (R172); else fetch, decode, execute and tick the timers. -/
def step (s : State) : Host.Outcome State Fault Refusal :=
  if s.halted then .next s
  else
    match s.fetchDecode with
    | .error e => .next (s.raise e)
    | .ok i => finishStep (exec i s)

/-- `s` with the instruction whose bits are `w` stored at `pc`, where `step` fetches next (log 25). -/
def State.withFetchWord (s : State) (nbits w : Nat) : State := s.placeAtPc (tableBytes nbits w)

end Sys2Proof.Machine
end

