-- ==== Sys2Proof/Machine/HostOps.lean ====
section
/-! DEFINITION. The host: its operations on the machine between steps, what it reads, and runs that interleave both agents (00_scope.md R7, R9; 70_reset_and_hazards.md R190 to R194). -/

namespace Sys2Proof.Machine

/-- The host operations that write the machine (R9). `Step` is `step`, and reads are `hostView`. -/
inductive HostOp where
  | reset
  | loadProgram (bytes : List Byte)
  | setKeys (k : Word)
  | clearRedraw
  deriving DecidableEq, Repr

/-- `Reset` (R190): every piece of the spec's state takes its reset value. The model's counter of free draws runs on, so that
a draw after a reset is as free as any other (log 19). -/
def hostReset (s : State) : State := { State.reset with draws := s.draws }

/-- `LoadProgram(bytes)` (R192): an image that fits is copied to 0x200 and nothing else changes; one that is too long
reports ProgramTooLarge and writes nothing (D26, log 24). -/
def loadProgram (bytes : List Byte) (s : State) : Host.Outcome State Fault Refusal :=
  if imageWellFormed bytes then .next { s with mem := storePrefix (fun _ => true) s.mem 0x200 0 bytes }
  else .fault .programTooLarge

/-- `SetKeys(k)` (R30). -/
def setKeys (k : Word) (s : State) : State := { s with keys := k }

/-- `ClearRedraw` (R32). -/
def clearRedraw (s : State) : State := { s with redraw := false }

/-- One host operation; each acts on a halted machine too, and only `Reset` clears `err` (R172). -/
def applyHost (op : HostOp) (s : State) : Host.Outcome State Fault Refusal :=
  match op with
  | .reset => .next (hostReset s)
  | .loadProgram bytes => loadProgram bytes s
  | .setKeys k => .next (setKeys k s)
  | .clearRedraw => .next (clearRedraw s)

/-- The numeric code of an error kind (R160, D10, log 29). -/
def errorCode (e : Option ErrorKind) : BitVec 3 :=
  match e with
  | none => 0#3
  | some .unknownOpcode => 1#3
  | some .stackOverflow => 2#3
  | some .stackUnderflow => 3#3
  | some .outOfBounds => 4#3
  | some .programTooLarge => 5#3

/-- What the host may read between steps (R39); the signals `fb`, `redraw`, `dt`, `st` and `err` of R9. -/
structure HostView where
  fb : Screen
  redraw : Bool
  dt : Byte
  st : Byte
  err : BitVec 3
  deriving DecidableEq, Repr

/-- A host read: no side effect (R39). -/
def hostView (s : State) : HostView :=
  { fb := s.FB, redraw := s.redraw, dt := s.DT, st := s.ST, err := errorCode s.err }

/-- One atomic transition of the whole machine: a step of the core or an operation of the host (R7). -/
inductive Event where
  | step
  | host (op : HostOp)
  deriving DecidableEq, Repr

/-- One transition. -/
def applyEvent (e : Event) (s : State) : Host.Outcome State Fault Refusal :=
  match e with
  | .step => step s
  | .host op => applyHost op s

/-- A run: transitions in the order the host chooses (R7, R206). A `LoadProgram` that reports ProgramTooLarge leaves the
machine as it was (R192). -/
def runEvents : List Event → State → State
  | [], s => s
  | e :: es, s =>
    match applyEvent e s with
    | .next t => runEvents es t
    | .fault _ => runEvents es s
    | .refused _ => runEvents es s

end Sys2Proof.Machine
end

