-- ==== Sys2Proof/Safety.lean ====
section
/-! DEFINITION. What counts as a safe state and run, in the terms claims use: failed, parked, waiting (70_reset_and_hazards.md R206) and the invariants of the state (10_state.md R44). -/

namespace Sys2Proof

open Sys2Proof.Machine

/-- FAILED: an error is latched (R206). "A halted state is a fault, never a final state" (R172). -/
def Failed (s : State) : Bool := s.err.isSome

/-- A run is safe so long as no error is latched. -/
def Safe (s : State) : Bool := !Failed s

/-- PARKED AT `a`: no error, `pc = a`, and memory at `a`, `a + 1` holds `JP a` (R206). -/
def ParkedAt (a : Addr12) (s : State) : Bool :=
  decide (s.err = none) && decide (s.pc = addrOperand a) && decide (s.fetch = some (encodeBytes (.jp a)))

/-- WAITING: `pc` at an `LD Vx,K` with no key down, no error latched (R206). Not an end. -/
def Waiting (s : State) : Bool :=
  decide (s.err = none) && decide (s.keys = 0#16) &&
    (match s.fetchDecode with
      | .ok (.ldVxK _) => true
      | _ => false)

/-- The invariants of every reachable state that the state's types do not already say (R44, R33): memory in canonical form
below 4096, `pc <= 0x10FE`, every stack entry at most 0x1000, and no ProgramTooLarge latched. -/
def Inv (s : State) : Prop :=
  Memory.wf s.mem = true ∧ s.pc.toNat ≤ 0x10FE ∧ (∀ i : Fin 16, (s.stack[i]).toNat ≤ 0x1000) ∧
    s.err ≠ some .programTooLarge

end Sys2Proof
end

