-- ==== Sys2Proof/Certificates/Slice0/Obligations.lean ====
section
/-! DEFINITION. The statements for the provers. Each docstring names the rule of spec/ it formalises. Instruction results give the whole next state: a record update names what changes, so everything else, every byte of memory included, is unchanged. Where an instruction's statement decodes a word, the bit pattern is R75's, the spec's own decision D2 (log 2). -/

open Sys2Proof
open Sys2Proof.Machine

namespace Sys2Proof.Claims

/-- The frame of an instruction that writes V registers alone: everything but the registers and `pc` is unchanged, and `pc`
advances by two. -/
def RegistersOnly (s t : State) : Prop := t = { s with V := t.V, pc := s.pc + 2#16 }

/-- The frame of a completed store: everything but memory and `pc` is unchanged, and `pc` advances by two. -/
def MemoryOnly (s t : State) : Prop := t = { s with mem := t.mem, pc := s.pc + 2#16 }

/-- Where sprite pixel `(cx, cy)` is drawn, in R142's own words: reduced modulo the screen under `wrap`, in place or nowhere
under `clip`. -/
def PlacedAt (edge : DrwEdge) (cx cy : Nat) (px : Fin 64) (py : Fin 32) : Prop :=
  match edge with
  | .wrap => px.val = cx % 64 ∧ py.val = cy % 32
  | .clip => px.val = cx ∧ py.val = cy

/-- The pixels the set bits of an `n`-byte sprite at address `i` fall on, drawn from `(vx mod 64, vy mod 32)`: bit `7 - c` of
row `r` (R141). -/
def SpriteCovers (edge : DrwEdge) (vx vy : Byte) (m : Memory) (i n : Nat) (px : Fin 64) (py : Fin 32) : Prop :=
  ∃ r c, r < n ∧ c < 8 ∧ (Memory.read m (i + r)).getLsbD (7 - c) = true ∧
    PlacedAt edge (vx.toNat % 64 + c) (vy.toNat % 32 + r) px py

/-- The sprite of DRW lies in memory whole (R141, the converse of its OutOfBounds condition). -/
def SpriteInMemory (n : Nibble) (s : State) : Prop := n = 0#4 ∨ s.I.toNat + n.toNat ≤ 4096

/-- The registers an instruction may write (R22, R38): its destination, VF where the rule sets a flag. -/
def WritesReg (i : Instr) (r : Nibble) : Prop :=
  match i with
  | .ldVxKk x _ => r = x
  | .addVxKk x _ => r = x
  | .ldVxVy x _ => r = x
  | .orVxVy x _ => r = x
  | .andVxVy x _ => r = x
  | .xorVxVy x _ => r = x
  | .addVxVy x _ => r = x ∨ r = 0xF#4
  | .subVxVy x _ => r = x ∨ r = 0xF#4
  | .subnVxVy x _ => r = x ∨ r = 0xF#4
  | .shrVx x _ => r = x ∨ r = 0xF#4
  | .shlVx x _ => r = x ∨ r = 0xF#4
  | .rnd x _ => r = x
  | .drw _ _ _ => r = 0xF#4
  | .ldVxDT x => r = x
  | .ldVxK x => r = x
  | .loadVx x => r.toNat ≤ x.toNat
  | _ => False

/-- Instructions executed one after the other, without the fetch and the timers around them. -/
def execAll : List Instr → State → Host.Outcome State Fault Refusal
  | [], s => .next s
  | i :: is, s =>
    match exec i s with
    | .next t => execAll is t
    | .fault r => .fault r
    | .refused r => .refused r

end Sys2Proof.Claims

open Sys2Proof.Claims

/-! ### Encoding -/

/-- The worked encodings of R83, both ways (patterns of R75, the spec's decision D2, log 2). -/
def Obligations.WorkedEncodings : Prop :=
  (encodeBytes (.jp 0x3C5#12) = [0x13#8, 0xC5#8] ∧ decodeWord 0x13C5#16 = some (.jp 0x3C5#12)) ∧
  (encode (.call 0x300#12) = 0x2300#16 ∧ decodeWord 0x2300#16 = some (.call 0x300#12)) ∧
  (encode (.ldVxKk 0x3#4 0x2A#8) = 0x632A#16 ∧ decodeWord 0x632A#16 = some (.ldVxKk 0x3#4 0x2A#8)) ∧
  (encode (.addVxVy 0xA#4 0xB#4) = 0x8AB4#16 ∧ decodeWord 0x8AB4#16 = some (.addVxVy 0xA#4 0xB#4)) ∧
  (encode (.drw 0x1#4 0x2#4 0x5#4) = 0xD125#16 ∧ decodeWord 0xD125#16 = some (.drw 0x1#4 0x2#4 0x5#4)) ∧
  (encode (.sknp 0xC#4) = 0xECA1#16 ∧ decodeWord 0xECA1#16 = some (.sknp 0xC#4)) ∧
  (encode (.storeVx 0xF#4) = 0xFF55#16 ∧ decodeWord 0xFF55#16 = some (.storeVx 0xF#4))

/-- R82: "`Decode(Encode(i)) = i` for every instruction `i`", on words and on stored bytes whatever
follows them. It says that no field is dropped; that the patterns are right rests on R75 (D2, log 2). -/
def Obligations.DecodeOfEncode : Prop :=
  ∀ i : Instr, decodeWord (encode i) = some i ∧
    ∀ rest, decode (encodeBytes i ++ rest) = .ok (i, rest)

/-- R82: "`Encode(Decode(w)) = w` for every legal word `w`", without exception because the model
keeps `y` in SHR and SHL (log 10). -/
def Obligations.EncodeOfDecode : Prop :=
  ∀ (w : Word) (i : Instr), decodeWord w = some i → encode i = w

/-- R76: the unknown words are exactly the table's groups. The numbers are cut from the word by division, not by the decoder's
own fields. The strict match is the spec's decision D3 (log 3). -/
def Obligations.UnknownWordsAreTheseGroups : Prop :=
  ∀ w : Word, decodeWord w = none ↔
    (w.toNat / 4096 = 0x0 ∧ w ≠ 0x00E0#16 ∧ w ≠ 0x00EE#16) ∨
    (w.toNat / 4096 = 0x5 ∧ w.toNat % 16 ≠ 0) ∨
    (w.toNat / 4096 = 0x8 ∧ (0x8 ≤ w.toNat % 16 ∧ w.toNat % 16 ≤ 0xD ∨ w.toNat % 16 = 0xF)) ∨
    (w.toNat / 4096 = 0x9 ∧ w.toNat % 16 ≠ 0) ∨
    (w.toNat / 4096 = 0xE ∧ w.toNat % 256 ∉ [0x9E, 0xA1]) ∨
    (w.toNat / 4096 = 0xF ∧ w.toNat % 256 ∉ [0x07, 0x0A, 0x15, 0x18, 0x1E, 0x29, 0x33, 0x55, 0x65])

/-- R74 against R75: the decoder that searches the opcode table is the nested case analysis of R74 (D2 and D3, log 2
and log 3). -/
def Obligations.TableDecodeIsNestedDecode : Prop := ∀ w : Word, decodeWord w = decodeNested w

/-- R75: 34 rows, pairwise disjoint; a word decodes exactly when it selects a row by match and mask, and then to an
instruction of that very row (D2, log 2). -/
def Obligations.OpcodeMapSelectsInstruction : Prop :=
  opcodeMap.length = 34 ∧
  (∀ w : Word, ∀ a ∈ opcodeMap, ∀ b ∈ opcodeMap, w &&& a.2 = a.1 → w &&& b.2 = b.1 → a = b) ∧
  (∀ w : Word, (∃ i, decodeWord w = some i) ↔ ∃ row ∈ opcodeMap, w &&& row.2 = row.1) ∧
  (∀ (w : Word) (i : Instr), decodeWord w = some i → rowOf i ∈ opcodeMap ∧ w &&& (rowOf i).2 = (rowOf i).1)

/-- R77: the `y` field of SHR and SHL is decoded, any of its 16 values, and ignored (D12, log 10). -/
def Obligations.ShiftsIgnoreSecondField : Prop :=
  ∀ (x y y' : Nibble) (s : State),
    decodeWord (wordOf 0x8#4 x y 0x6#4) = some (.shrVx x y) ∧ exec (.shrVx x y) s = exec (.shrVx x y') s ∧
    decodeWord (wordOf 0x8#4 x y 0xE#4) = some (.shlVx x y) ∧ exec (.shlVx x y) s = exec (.shlVx x y') s

/-! ### Control flow -/

/-- R101 and R103: jumps set `pc` and nothing else. -/
def Obligations.JumpsSetPc : Prop :=
  ∀ (nnn : Addr12) (s : State),
    decodeWord (wordNNN 0x1#4 nnn) = some (.jp nnn) ∧
    exec (.jp nnn) s = .next { s with pc := nnn.setWidth 16 } ∧
    decodeWord (wordNNN 0xB#4 nnn) = some (.jpV0 nnn) ∧
    ∃ t, exec (.jpV0 nnn) s = .next t ∧ t = { s with pc := t.pc } ∧
      t.pc.toNat = (s.reg 0#4).toNat + nnn.toNat

/-- R102: CALL pushes `pc + 2` and jumps; on a full stack it raises StackOverflow and nothing but `err` changes. That
`sp` counts entries from 0 is the spec's decision D6 (log 7), that `pc` stays put D7 (log 8). -/
def Obligations.CallPushesNextAddress : Prop :=
  ∀ (nnn : Addr12) (s : State),
    decodeWord (wordNNN 0x2#4 nnn) = some (.call nnn) ∧
    (∀ h : s.sp.val < 16, ∃ t, exec (.call nnn) s = .next t ∧ t.sp.val = s.sp.val + 1 ∧
      t = { s with stack := s.stack.set s.sp.val (s.pc + 2#16) h, sp := t.sp, pc := nnn.setWidth 16 }) ∧
    (s.sp.val = 16 → exec (.call nnn) s = .next { s with err := some .stackOverflow })

/-- R100: RET pops the most recent entry into `pc`, which keeps its value in the stack; on an empty stack it raises
StackUnderflow and nothing but `err` changes (D6 and D7, log 7 and log 8). -/
def Obligations.ReturnPopsAddress : Prop :=
  decodeWord 0x00EE#16 = some .ret ∧
  ∀ s : State,
    (0 < s.sp.val → ∃ t, exec .ret s = .next t ∧ t.sp.val = s.sp.val - 1 ∧ s.stack[s.sp.val - 1]? = some t.pc ∧
      t = { s with sp := t.sp, pc := t.pc }) ∧
    (s.sp.val = 0 → exec .ret s = .next { s with err := some .stackUnderflow })

/-- R104 and R105: skips on a literal add 4 to `pc` when taken and 2 when not, and change nothing else. -/
def Obligations.LiteralSkips : Prop :=
  ∀ (x : Nibble) (kk : Byte) (s : State),
    decodeWord (wordXKK 0x3#4 x kk) = some (.seVxKk x kk) ∧
    exec (.seVxKk x kk) s = .next { s with pc := if s.reg x = kk then s.pc + 4#16 else s.pc + 2#16 } ∧
    decodeWord (wordXKK 0x4#4 x kk) = some (.sneVxKk x kk) ∧
    exec (.sneVxKk x kk) s = .next { s with pc := if s.reg x = kk then s.pc + 2#16 else s.pc + 4#16 }

/-- R106 and R107: skips on two registers. -/
def Obligations.RegisterSkips : Prop :=
  ∀ (x y : Nibble) (s : State),
    decodeWord (wordOf 0x5#4 x y 0x0#4) = some (.seVxVy x y) ∧
    exec (.seVxVy x y) s = .next { s with pc := if s.reg x = s.reg y then s.pc + 4#16 else s.pc + 2#16 } ∧
    decodeWord (wordOf 0x9#4 x y 0x0#4) = some (.sneVxVy x y) ∧
    exec (.sneVxVy x y) s = .next { s with pc := if s.reg x = s.reg y then s.pc + 2#16 else s.pc + 4#16 }

/-- R100 with R102: a RET right after a CALL resumes at the instruction after the CALL, with the stack as deep as before
(the form of `sp` is D6, log 7). -/
def Obligations.ReturnAfterCall : Prop :=
  ∀ (nnn : Addr12) (s : State), s.sp.val < 16 →
    ∃ t u, exec (.call nnn) s = .next t ∧ exec .ret t = .next u ∧ u.pc = s.pc + 2#16 ∧ u.sp = s.sp ∧
      u = { s with stack := t.stack, pc := u.pc }

/-- R102: "16 consecutive CALLs succeed; the 17th fails with `StackOverflow`", whatever their targets (the form
of `sp` is D6, log 7). -/
def Obligations.SixteenCallsThenOverflow : Prop :=
  ∀ (targets : List Addr12) (last : Addr12) (s : State), targets.length = 16 → s.sp.val = 0 →
    ∃ t, execAll (targets.map Instr.call) s = .next t ∧ t.err = s.err ∧ t.sp.val = 16 ∧
      exec (.call last) t = .next { t with err := some .stackOverflow }

/-! ### Loads, arithmetic, logic, shifts, random -/

/-- R111 and R112: a load writes its register and no other. -/
def Obligations.LoadsWriteOneRegister : Prop :=
  ∀ (x y : Nibble) (kk : Byte) (s : State),
    decodeWord (wordXKK 0x6#4 x kk) = some (.ldVxKk x kk) ∧
    (∃ t, exec (.ldVxKk x kk) s = .next t ∧ RegistersOnly s t ∧ ∀ r, t.reg r = if r = x then kk else s.reg r) ∧
    decodeWord (wordOf 0x8#4 x y 0x0#4) = some (.ldVxVy x y) ∧
    (∃ t, exec (.ldVxVy x y) s = .next t ∧ RegistersOnly s t ∧ ∀ r, t.reg r = if r = x then s.reg y else s.reg r)

/-- R113: ADD Vx,kk wraps modulo 256 and has no flag. -/
def Obligations.AddLiteralWraps : Prop :=
  ∀ (x : Nibble) (kk : Byte) (s : State),
    decodeWord (wordXKK 0x7#4 x kk) = some (.addVxKk x kk) ∧
    ∃ t, exec (.addVxKk x kk) s = .next t ∧ RegistersOnly s t ∧
      (t.reg x).toNat = ((s.reg x).toNat + kk.toNat) % 256 ∧ ∀ r, r ≠ x → t.reg r = s.reg r

/-- R114, R115 and R116: the logic instructions combine bit by bit and leave VF alone. -/
def Obligations.LogicLeavesFlag : Prop :=
  ∀ (x y : Nibble) (s : State),
    decodeWord (wordOf 0x8#4 x y 0x1#4) = some (.orVxVy x y) ∧
    (∃ t, exec (.orVxVy x y) s = .next t ∧ RegistersOnly s t ∧
      (∀ i < 8, (t.reg x).getLsbD i = ((s.reg x).getLsbD i || (s.reg y).getLsbD i)) ∧ ∀ r, r ≠ x → t.reg r = s.reg r) ∧
    decodeWord (wordOf 0x8#4 x y 0x2#4) = some (.andVxVy x y) ∧
    (∃ t, exec (.andVxVy x y) s = .next t ∧ RegistersOnly s t ∧
      (∀ i < 8, (t.reg x).getLsbD i = ((s.reg x).getLsbD i && (s.reg y).getLsbD i)) ∧ ∀ r, r ≠ x → t.reg r = s.reg r) ∧
    decodeWord (wordOf 0x8#4 x y 0x3#4) = some (.xorVxVy x y) ∧
    (∃ t, exec (.xorVxVy x y) s = .next t ∧ RegistersOnly s t ∧
      (∀ i < 8, (t.reg x).getLsbD i = ((s.reg x).getLsbD i != (s.reg y).getLsbD i)) ∧ ∀ r, r ≠ x → t.reg r = s.reg r)

/-- R117: the sum modulo 256 in `V[x]`, the carry in VF; with `x = 0xF` the sum overwrites the carry,
which rests on the spec's decision D11 on the order of statements (log 9). -/
def Obligations.AddSetsCarry : Prop :=
  ∀ (x y : Nibble) (s : State),
    decodeWord (wordOf 0x8#4 x y 0x4#4) = some (.addVxVy x y) ∧
    ∃ t, exec (.addVxVy x y) s = .next t ∧ RegistersOnly s t ∧
      (t.reg x).toNat = ((s.reg x).toNat + (s.reg y).toNat) % 256 ∧
      (x ≠ 0xF#4 → t.reg 0xF#4 = if 255 < (s.reg x).toNat + (s.reg y).toNat then 1#8 else 0#8) ∧
      ∀ r, r ≠ x → r ≠ 0xF#4 → t.reg r = s.reg r

/-- R118: SUB, case by case as the rule's table; its rows with `x` or `y` 0xF rest on the spec's decision D11 (log 9). -/
def Obligations.SubtractByCases : Prop :=
  ∀ (x y : Nibble) (s : State),
    decodeWord (wordOf 0x8#4 x y 0x5#4) = some (.subVxVy x y) ∧
    ∃ t f, exec (.subVxVy x y) s = .next t ∧ RegistersOnly s t ∧
      f = (if (s.reg y).toNat < (s.reg x).toNat then 1 else 0) ∧
      (if x = 0xF#4 then
        if y = 0xF#4 then (t.reg 0xF#4).toNat = 0
        else (t.reg 0xF#4).toNat = (f + 256 - (s.reg y).toNat) % 256
      else
        (t.reg 0xF#4).toNat = f ∧
          if y = 0xF#4 then (t.reg x).toNat = ((s.reg x).toNat + 256 - f) % 256
          else (t.reg x).toNat = ((s.reg x).toNat + 256 - (s.reg y).toNat) % 256) ∧
      ∀ r, r ≠ x → r ≠ 0xF#4 → t.reg r = s.reg r

/-- R119: SUBN, case by case as the rule's table; its rows with `x` or `y` 0xF rest on the spec's decision D11 (log 9). -/
def Obligations.SubtractReverseByCases : Prop :=
  ∀ (x y : Nibble) (s : State),
    decodeWord (wordOf 0x8#4 x y 0x7#4) = some (.subnVxVy x y) ∧
    ∃ t f, exec (.subnVxVy x y) s = .next t ∧ RegistersOnly s t ∧
      f = (if (s.reg x).toNat < (s.reg y).toNat then 1 else 0) ∧
      (if x = 0xF#4 then
        if y = 0xF#4 then (t.reg 0xF#4).toNat = 0
        else (t.reg 0xF#4).toNat = ((s.reg y).toNat + 256 - f) % 256
      else
        (t.reg 0xF#4).toNat = f ∧
          if y = 0xF#4 then (t.reg x).toNat = (f + 256 - (s.reg x).toNat) % 256
          else (t.reg x).toNat = ((s.reg y).toNat + 256 - (s.reg x).toNat) % 256) ∧
      ∀ r, r ≠ x → r ≠ 0xF#4 → t.reg r = s.reg r

/-- R120 and R121: one-bit shifts; VF takes the bit shifted out, and with `x = 0xF` the shift acts on the bit just written
(D11, log 9; the ignored `y` is D12, log 10). -/
def Obligations.ShiftsCaptureBit : Prop :=
  ∀ (x y : Nibble) (s : State),
    decodeWord (wordOf 0x8#4 x y 0x6#4) = some (.shrVx x y) ∧
    (∃ t, exec (.shrVx x y) s = .next t ∧ RegistersOnly s t ∧
      (if x = 0xF#4 then (t.reg 0xF#4).toNat = 0
      else (t.reg 0xF#4).toNat = (s.reg x).toNat % 2 ∧ (t.reg x).toNat = (s.reg x).toNat / 2) ∧
      ∀ r, r ≠ x → r ≠ 0xF#4 → t.reg r = s.reg r) ∧
    decodeWord (wordOf 0x8#4 x y 0xE#4) = some (.shlVx x y) ∧
    (∃ t, exec (.shlVx x y) s = .next t ∧ RegistersOnly s t ∧
      (if x = 0xF#4 then (t.reg 0xF#4).toNat = 2 * ((s.reg x).toNat / 128)
      else (t.reg 0xF#4).toNat = (s.reg x).toNat / 128 ∧ (t.reg x).toNat = 2 * (s.reg x).toNat % 256) ∧
      ∀ r, r ≠ x → r ≠ 0xF#4 → t.reg r = s.reg r)

/-- R122: `kk` masks a byte drawn afresh (the free `Config.rnd` at the model's counter `draws`, which then moves on; log 18 and
log 19). -/
def Obligations.RandomIsMaskedDraw : Prop :=
  ∀ (x : Nibble) (kk : Byte) (s : State),
    decodeWord (wordXKK 0xC#4 x kk) = some (.rnd x kk) ∧
    ∃ t, exec (.rnd x kk) s = .next t ∧ t = { s with V := t.V, pc := s.pc + 2#16, draws := s.draws + 1 } ∧
      t.reg x = kk &&& Config.rnd s.draws ∧ ∀ r, r ≠ x → t.reg r = s.reg r

/-! ### Index register and memory -/

/-- R130, R131 and R132: the three instructions that write `I` (the wrap and the unmasked glyph index are the spec's
decision D14, log 12). -/
def Obligations.IndexWrites : Prop :=
  ∀ (nnn : Addr12) (x : Nibble) (s : State),
    decodeWord (wordNNN 0xA#4 nnn) = some (.ldI nnn) ∧
    (∃ t, exec (.ldI nnn) s = .next t ∧ t = { s with I := t.I, pc := s.pc + 2#16 } ∧ t.I.toNat = nnn.toNat) ∧
    decodeWord (wordOf 0xF#4 x 0x1#4 0xE#4) = some (.addIVx x) ∧
    (∃ t, exec (.addIVx x) s = .next t ∧ t = { s with I := t.I, pc := s.pc + 2#16 } ∧
      t.I.toNat = (s.I.toNat + (s.reg x).toNat) % 65536) ∧
    decodeWord (wordOf 0xF#4 x 0x2#4 0x9#4) = some (.ldFVx x) ∧
    (∃ t, exec (.ldFVx x) s = .next t ∧ t = { s with I := t.I, pc := s.pc + 2#16 } ∧
      t.I.toNat = 0x050 + 5 * (s.reg x).toNat)

/-- R133, where it completes: the three digits at `I`, `I + 1` and `I + 2`, every other byte as before. -/
def Obligations.DecimalDigitsStored : Prop :=
  ∀ (x : Nibble) (s : State), Memory.wf s.mem = true → s.I.toNat + 2 < 4096 →
    decodeWord (wordOf 0xF#4 x 0x3#4 0x3#4) = some (.ldBVx x) ∧
    ∃ t, exec (.ldBVx x) s = .next t ∧ MemoryOnly s t ∧
      ∀ a, memRead t.mem a =
        if a = s.I.toNat then some (BitVec.ofNat 8 ((s.reg x).toNat / 100))
        else if a = s.I.toNat + 1 then some (BitVec.ofNat 8 ((s.reg x).toNat / 10 % 10))
        else if a = s.I.toNat + 2 then some (BitVec.ofNat 8 ((s.reg x).toNat % 10))
        else memRead s.mem a

/-- R134, where it completes: `V[0]` to `V[x]`, inclusive, at `I` to `I + x`, every other byte as before; `I` keeps
its value (D13, log 11). -/
def Obligations.RegistersStored : Prop :=
  ∀ (x : Nibble) (s : State), Memory.wf s.mem = true → s.I.toNat + x.toNat < 4096 →
    decodeWord (wordOf 0xF#4 x 0x5#4 0x5#4) = some (.storeVx x) ∧
    ∃ t, exec (.storeVx x) s = .next t ∧ MemoryOnly s t ∧
      ∀ a, memRead t.mem a =
        if s.I.toNat ≤ a ∧ a ≤ s.I.toNat + x.toNat then some (s.reg (BitVec.ofNat 4 (a - s.I.toNat)))
        else memRead s.mem a

/-- R135, where it completes: `V[0]` to `V[x]`, inclusive, from `I` to `I + x`, the registers above as before; `I` keeps
its value (D13, log 11). -/
def Obligations.RegistersLoaded : Prop :=
  ∀ (x : Nibble) (s : State), s.I.toNat + x.toNat < 4096 →
    decodeWord (wordOf 0xF#4 x 0x6#4 0x5#4) = some (.loadVx x) ∧
    ∃ t, exec (.loadVx x) s = .next t ∧ RegistersOnly s t ∧
      ∀ r, if r.toNat ≤ x.toNat then memRead s.mem (s.I.toNat + r.toNat) = some (t.reg r) else t.reg r = s.reg r

/-- R133 and R134 with R171: a store past the end of memory takes OutOfBounds; each byte is old, or in range and new
(PARTIAL_EFFECTS left free: D22, log 20). -/
def Obligations.StorePastEndTraps : Prop :=
  ∀ (x : Nibble) (s : State), Memory.wf s.mem = true →
    (4096 ≤ s.I.toNat + x.toNat → ∃ t, exec (.storeVx x) s = .next t ∧
      t = { s with mem := t.mem, draws := t.draws, err := some .outOfBounds } ∧
      ∀ a, memRead t.mem a = memRead s.mem a ∨
        s.I.toNat ≤ a ∧ a ≤ s.I.toNat + x.toNat ∧ memRead t.mem a = some (s.reg (BitVec.ofNat 4 (a - s.I.toNat)))) ∧
    (4096 ≤ s.I.toNat + 2 → ∃ t, exec (.ldBVx x) s = .next t ∧
      t = { s with mem := t.mem, draws := t.draws, err := some .outOfBounds } ∧
      ∀ a, memRead t.mem a = memRead s.mem a ∨
        a = s.I.toNat ∧ memRead t.mem a = some (BitVec.ofNat 8 ((s.reg x).toNat / 100)) ∨
        a = s.I.toNat + 1 ∧ memRead t.mem a = some (BitVec.ofNat 8 ((s.reg x).toNat / 10 % 10)))

/-- R135 with R171: a load past the end of memory takes OutOfBounds; each register is old, or in range and new
(PARTIAL_EFFECTS left free: D22, log 20). -/
def Obligations.LoadPastEndTraps : Prop :=
  ∀ (x : Nibble) (s : State), 4096 ≤ s.I.toNat + x.toNat →
    ∃ t, exec (.loadVx x) s = .next t ∧ t = { s with V := t.V, draws := t.draws, err := some .outOfBounds } ∧
      ∀ r, t.reg r = s.reg r ∨ r.toNat ≤ x.toNat ∧ memRead s.mem (s.I.toNat + r.toNat) = some (t.reg r)

/-- R132 with R135: LD F,Vx then LD V4,[I] reads back the five bytes of the glyph, while the glyph area is as reset left it.
It holds for every setting of the open parameter GLYPHS, which the model leaves free (D4, log 4). -/
def Obligations.GlyphReadsBack : Prop :=
  ∀ (x : Nibble) (s : State), (s.reg x).toNat < 16 →
    (∀ a, 0x050 ≤ a → a < 0x0A0 → memRead s.mem a = memRead State.reset.mem a) →
    ∃ t u, exec (.ldFVx x) s = .next t ∧ exec (.loadVx 4#4) t = .next u ∧
      ∀ k < 5, glyphs[5 * (s.reg x).toNat + k]? = some (u.reg (BitVec.ofNat 4 k))

/-- R62: bytes stored over the next instruction are what the next fetch reads (log 26). -/
def Obligations.StoredBytesAreFetchedNext : Prop :=
  ∀ (x : Nibble) (s : State), Memory.wf s.mem = true → 1 ≤ x.toNat → s.I = s.pc + 2#16 → s.I.toNat + x.toNat < 4096 →
    ∃ t, exec (.storeVx x) s = .next t ∧ t.pc = s.I ∧ t.fetch = some [s.reg 0#4, s.reg 1#4]

/-! ### Display -/

/-- R140: CLS clears every pixel, sets the redraw flag and touches nothing else (the flag: D18, log 15; the
size: D1, log 5). -/
def Obligations.ClearScreen : Prop :=
  decodeWord 0x00E0#16 = some .cls ∧
  ∀ s : State, ∃ t, exec .cls s = .next t ∧ t = { s with FB := t.FB, redraw := true, pc := s.pc + 2#16 } ∧
    ∀ px py, pixelAt t.FB px py = false

/-- R141 and R142, where DRW completes: exactly the covered pixels are toggled; VF is 1 when a pixel went from lit to unlit
and 0 otherwise; the redraw flag is set; nothing else changes. For both settings of DRW_EDGE (D15, log 13);
orientation and `n = 0` are D16 and D17 (log 14), the flag D18 (log 15). -/
def Obligations.DrawTogglesCoveredPixels : Prop :=
  ∀ (x y n : Nibble) (s : State), SpriteInMemory n s →
    decodeWord (wordOf 0xD#4 x y n) = some (.drw x y n) ∧
    ∃ t, exec (.drw x y n) s = .next t ∧
      t = { s with V := t.V, FB := t.FB, redraw := true, pc := s.pc + 2#16 } ∧
      (∀ r, r ≠ 0xF#4 → t.reg r = s.reg r) ∧
      (∀ px py, pixelAt t.FB px py ≠ pixelAt s.FB px py ↔
        SpriteCovers Config.drwEdge (s.reg x) (s.reg y) s.mem s.I.toNat n.toNat px py) ∧
      ((∃ px py, pixelAt s.FB px py = true ∧ pixelAt t.FB px py = false) → t.reg 0xF#4 = 1#8) ∧
      ((∀ px py, pixelAt s.FB px py = true → pixelAt t.FB px py = true) → t.reg 0xF#4 = 0#8)

/-- R141: drawing the same sprite twice restores the framebuffer, and the second draw collides whenever the first found no
lit pixel under the sprite and placed at least one bit. VF must not be a coordinate, since the first draw writes it
(C7; D15, log 13). -/
def Obligations.DrawTwiceRestoresScreen : Prop :=
  ∀ (x y n : Nibble) (s : State), x ≠ 0xF#4 → y ≠ 0xF#4 → SpriteInMemory n s →
    ∃ t u, exec (.drw x y n) s = .next t ∧ exec (.drw x y n) t = .next u ∧ u.FB = s.FB ∧
      (t.reg 0xF#4 = 0#8 →
        (∃ px py, SpriteCovers Config.drwEdge (s.reg x) (s.reg y) s.mem s.I.toNat n.toNat px py) →
        u.reg 0xF#4 = 1#8)

/-- R140 with R141: "CLS followed by any draw leaves exactly the drawn sprite's bits set", and VF = 0
(D15 and D16, log 13 and log 14). -/
def Obligations.DrawOnClearScreen : Prop :=
  ∀ (x y n : Nibble) (s : State), SpriteInMemory n s →
    ∃ t u, exec .cls s = .next t ∧ exec (.drw x y n) t = .next u ∧ u.reg 0xF#4 = 0#8 ∧
      ∀ px py, pixelAt u.FB px py = true ↔
        SpriteCovers Config.drwEdge (s.reg x) (s.reg y) s.mem s.I.toNat n.toNat px py

/-- R142: "The two settings agree whenever `x0 <= 56` and `y0 + n <= 32`" (D15, log 13). -/
def Obligations.EdgeSettingsAgreeInside : Prop :=
  ∀ (vx vy : Byte) (rows : List Byte) (fb : Screen), vx.toNat % 64 ≤ 56 → vy.toNat % 32 + rows.length ≤ 32 →
    drawSprite .wrap vx vy rows fb = drawSprite .clip vx vy rows fb

/-- R141 with R171: a sprite that runs past the end of memory takes OutOfBounds; a pixel that changed is one a row in range
covers, VF is old, 0 or 1, the redraw flag is old or 1 (PARTIAL_EFFECTS left free: D22, log 20). -/
def Obligations.DrawPastEndTraps : Prop :=
  ∀ (x y n : Nibble) (s : State), n ≠ 0#4 → 4096 < s.I.toNat + n.toNat →
    ∃ t, exec (.drw x y n) s = .next t ∧
      t = { s with V := t.V, FB := t.FB, redraw := t.redraw, draws := t.draws, err := some .outOfBounds } ∧
      (∀ r, r ≠ 0xF#4 → t.reg r = s.reg r) ∧
      (t.reg 0xF#4 = s.reg 0xF#4 ∨ t.reg 0xF#4 = 0#8 ∨ t.reg 0xF#4 = 1#8) ∧
      (s.redraw = true → t.redraw = true) ∧
      ∀ px py, pixelAt t.FB px py ≠ pixelAt s.FB px py →
        SpriteCovers Config.drwEdge (s.reg x) (s.reg y) s.mem s.I.toNat (min n.toNat (4096 - s.I.toNat)) px py

/-! ### Keypad and timers -/

/-- R150 and R151: skips on a key; a key number above 15 raises OutOfBounds and nothing but `err` changes (D19,
log 16). -/
def Obligations.KeySkips : Prop :=
  ∀ (x : Nibble) (s : State),
    decodeWord (wordOf 0xE#4 x 0x9#4 0xE#4) = some (.skp x) ∧
    decodeWord (wordOf 0xE#4 x 0xA#4 0x1#4) = some (.sknp x) ∧
    ((s.reg x).toNat ≤ 15 →
      exec (.skp x) s =
        .next { s with pc := if s.keys.getLsbD (s.reg x).toNat = true then s.pc + 4#16 else s.pc + 2#16 } ∧
      exec (.sknp x) s =
        .next { s with pc := if s.keys.getLsbD (s.reg x).toNat = true then s.pc + 2#16 else s.pc + 4#16 }) ∧
    (15 < (s.reg x).toNat →
      exec (.skp x) s = .next { s with err := some .outOfBounds } ∧
      exec (.sknp x) s = .next { s with err := some .outOfBounds })

/-- R152: with no key down nothing changes; else `V[x]` takes the number `Pick(keys)` gives, a pressed key: the least under
`lowest`, the greatest under `highest`, any of them under `any` (KEY_PICK left free: D20, log 17). -/
def Obligations.WaitForKey : Prop :=
  ∀ (x : Nibble) (s : State),
    decodeWord (wordOf 0xF#4 x 0x0#4 0xA#4) = some (.ldVxK x) ∧
    (s.keys = 0#16 → exec (.ldVxK x) s = .next s) ∧
    (s.keys ≠ 0#16 → ∃ t k, exec (.ldVxK x) s = .next t ∧ pickKey Config.keyPick s.draws s.keys = some k ∧
      t = { s with V := t.V, pc := s.pc + 2#16, draws := t.draws } ∧
      (t.reg x).toNat = k ∧ ∀ r, r ≠ x → t.reg r = s.reg r) ∧
    (s.keys ≠ 0#16 → ∀ (p : KeyPick) (n : Nat), ∃ k < 16, pickKey p n s.keys = some k ∧ s.keys.getLsbD k = true ∧
      (p = .lowest → ∀ j < 16, s.keys.getLsbD j = true → k ≤ j) ∧
      (p = .highest → ∀ j < 16, s.keys.getLsbD j = true → j ≤ k))

/-- R153, R154 and R155: the moves between registers and timers, before this step's timer phase (D8, log 8). -/
def Obligations.TimerMoves : Prop :=
  ∀ (x : Nibble) (s : State),
    decodeWord (wordOf 0xF#4 x 0x0#4 0x7#4) = some (.ldVxDT x) ∧
    (∃ t, exec (.ldVxDT x) s = .next t ∧ RegistersOnly s t ∧ ∀ r, t.reg r = if r = x then s.DT else s.reg r) ∧
    decodeWord (wordOf 0xF#4 x 0x1#4 0x5#4) = some (.ldDTVx x) ∧
    exec (.ldDTVx x) s = .next { s with DT := s.reg x, pc := s.pc + 2#16 } ∧
    decodeWord (wordOf 0xF#4 x 0x1#4 0x8#4) = some (.ldSTVx x) ∧
    exec (.ldSTVx x) s = .next { s with ST := s.reg x, pc := s.pc + 2#16 }

/-! ### The step -/

/-- R40: when the two bytes at `pc` decode to `i`, the step is `exec` of `i` and then, unless an error was raised, one tick of
each timer that is not zero (D7 and D8, log 8). -/
def Obligations.StepRunsDecodedInstruction : Prop :=
  ∀ (s : State) (i : Instr) (rest : List Byte), s.err = none → s.pc.toNat + 1 < 4096 →
    decode [Memory.read s.mem s.pc.toNat, Memory.read s.mem (s.pc.toNat + 1)] = .ok (i, rest) →
    step s =
      match exec i s with
      | .next t =>
        if t.err = none then
          .next { t with
            DT := if t.DT = 0#8 then 0#8 else t.DT - 1#8
            ST := if t.ST = 0#8 then 0#8 else t.ST - 1#8 }
        else .next t
      | .fault r => .fault r
      | .refused r => .refused r

/-- R161 and R164 (a), in the order of R167: a fetch past the end of memory raises OutOfBounds, a word no row matches raises
UnknownOpcode, and nothing but `err` changes (D3, D7 and D24, log 3, log 8 and log 22). -/
def Obligations.FetchAndDecodeErrors : Prop :=
  ∀ s : State, s.err = none →
    (4096 ≤ s.pc.toNat + 1 → step s = .next { s with err := some .outOfBounds }) ∧
    (s.pc.toNat + 1 < 4096 →
      decodeWord (opcodeOf (Memory.read s.mem s.pc.toNat) (Memory.read s.mem (s.pc.toNat + 1))) = none →
      step s = .next { s with err := some .unknownOpcode })

/-- R172: once `err` is set a step changes nothing (D9, log 1). -/
def Obligations.HaltedStepChangesNothing : Prop := ∀ s : State, s.err ≠ none → step s = .next s

/-- R176 and R41: in every step that completes each timer drops by one, not below 0, from what the instruction left in it
(D8, log 8). -/
def Obligations.TimersTickInCompletedSteps : Prop :=
  ∀ s t : State, s.err = none → step s = .next t → t.err = none →
    ((∀ x, s.fetchDecode ≠ .ok (.ldDTVx x)) → t.DT.toNat = s.DT.toNat - 1) ∧
    (∀ x, s.fetchDecode = .ok (.ldDTVx x) → t.DT.toNat = (s.reg x).toNat - 1) ∧
    ((∀ x, s.fetchDecode ≠ .ok (.ldSTVx x)) → t.ST.toNat = s.ST.toNat - 1) ∧
    (∀ x, s.fetchDecode = .ok (.ldSTVx x) → t.ST.toNat = (s.reg x).toNat - 1)

/-- R170: a step that raises keeps `pc`, the timers, `I`, the stack, `sp` and the keys; only the destinations R171 names and
`err` may change (D7, D8 and D22, log 8 and log 20). -/
def Obligations.FailedStepKeepsPcAndTimers : Prop :=
  ∀ s t : State, s.err = none → step s = .next t → t.err ≠ none →
    t = { s with mem := t.mem, V := t.V, FB := t.FB, redraw := t.redraw, draws := t.draws, err := t.err }

/-- R161, R162, R163 and R165: UnknownOpcode, StackOverflow and StackUnderflow change nothing but `err`, and no step latches
ProgramTooLarge (D9, log 1). -/
def Obligations.EarlyErrorsChangeOnlyErr : Prop :=
  ∀ s t : State, s.err = none → step s = .next t →
    (t.err = some .unknownOpcode ∨ t.err = some .stackOverflow ∨ t.err = some .stackUnderflow →
      t = { s with err := t.err }) ∧
    t.err ≠ some .programTooLarge

/-- R160 and R164: which instruction raises which error, and when; no other instruction raises any (the key
numbers: D19, log 16). -/
def Obligations.ErrorCauses : Prop :=
  ∀ (i : Instr) (s t : State), s.err = none → exec i s = .next t →
    (t.err = some .stackOverflow ↔ ∃ nnn, i = .call nnn ∧ s.sp.val = 16) ∧
    (t.err = some .stackUnderflow ↔ i = .ret ∧ s.sp.val = 0) ∧
    (t.err = some .outOfBounds ↔
      (∃ x y n, i = .drw x y n ∧ n ≠ 0#4 ∧ 4096 < s.I.toNat + n.toNat) ∨
      (∃ x, i = .ldBVx x ∧ 4096 ≤ s.I.toNat + 2) ∨
      (∃ x, (i = .storeVx x ∨ i = .loadVx x) ∧ 4096 ≤ s.I.toNat + x.toNat) ∨
      (∃ x, (i = .skp x ∨ i = .sknp x) ∧ 15 < (s.reg x).toNat)) ∧
    t.err ≠ some .unknownOpcode ∧ t.err ≠ some .programTooLarge

/-- Every step from every state answers a next state. R42 says there is no refusal inside the hardware's own rules. That there
is no fault outcome either is the model's choice (DEDUCED, log 1): R42 counts a failed step as a fault, and the model takes the
state that R170 and R172 say such a step leaves, with `err` set, as a next state. -/
def Obligations.StepAlwaysAnswersNext : Prop := ∀ s : State, ∃ t, step s = .next t

/-- R44: a step keeps the invariants `Inv`: canonical memory below 4096, `pc` at most 0x10FE, stack entries at most 0x1000, no
ProgramTooLarge latched. The canonical form is the model's own, the rest the spec's. -/
def Obligations.StepKeepsInvariants : Prop := ∀ s t : State, Inv s → step s = .next t → Inv t

/-- R44 at reset: the invariants `Inv` of `StepKeepsInvariants`, no ProgramTooLarge latched among them (that no error at all is
latched is `ResetValues`). -/
def Obligations.ResetMeetsInvariants : Prop := Inv State.reset

/-- R44 over runs: any interleaving of steps and host operations, from any state with `Inv`, ends in one. -/
def Obligations.RunsKeepInvariants : Prop := ∀ (es : List Event) (s : State), Inv s → Inv (runEvents es s)

/-- R172: in a halted machine nothing but `Reset` clears or changes the latched error, whatever steps and other host
operations follow (D9, log 1). -/
def Obligations.OnlyResetClearsError : Prop :=
  ∀ (es : List Event) (s : State), s.err ≠ none → (∀ e ∈ es, e ≠ .host .reset) → (runEvents es s).err = s.err

/-! ### What may change what -/

/-- R38: each piece of state but the V registers is written only by the instructions the access table lists; no instruction
writes the keys; none clears the redraw flag. -/
def Obligations.InstructionWritesOnlyItsState : Prop :=
  ∀ (i : Instr) (s t : State), exec i s = .next t →
    t.keys = s.keys ∧
    ((∀ x, i ≠ .ldBVx x) → (∀ x, i ≠ .storeVx x) → t.mem = s.mem) ∧
    ((∀ nnn, i ≠ .ldI nnn) → (∀ x, i ≠ .addIVx x) → (∀ x, i ≠ .ldFVx x) → t.I = s.I) ∧
    ((∀ nnn, i ≠ .call nnn) → t.stack = s.stack) ∧
    ((∀ nnn, i ≠ .call nnn) → i ≠ .ret → t.sp = s.sp) ∧
    ((∀ x, i ≠ .ldDTVx x) → t.DT = s.DT) ∧
    ((∀ x, i ≠ .ldSTVx x) → t.ST = s.ST) ∧
    (i ≠ .cls → (∀ x y n, i ≠ .drw x y n) → t.FB = s.FB ∧ t.redraw = s.redraw) ∧
    (s.redraw = true → t.redraw = true)

/-- R22 and R38: a V register is written only as a destination or, VF, as the flag of the instructions R22 lists. -/
def Obligations.InstructionWritesOnlyItsRegisters : Prop :=
  ∀ (i : Instr) (s t : State) (r : Nibble), exec i s = .next t → ¬ WritesReg i r → t.reg r = s.reg r

/-- R38 with R29: only SKP, SKNP and LD Vx,K depend on the keys, and no instruction depends on the sound timer. -/
def Obligations.KeysAndSoundTimerAreNotRead : Prop :=
  ∀ (i : Instr) (s t : State), exec i s = .next t →
    (∀ k : Word, (∀ x, i ≠ .skp x) → (∀ x, i ≠ .sknp x) → (∀ x, i ≠ .ldVxK x) →
      exec i { s with keys := k } = .next { t with keys := k }) ∧
    (∀ v : Byte, (∀ x, i ≠ .ldSTVx x) → exec i { s with ST := v } = .next { t with ST := v }) ∧
    (∀ v : Byte, (∀ x, i = .ldSTVx x → exec i { s with ST := v } = .next t))

/-! ### Reset, load and the host -/

/-- R36: the value of every piece of state at reset; memory is 0 but for GLYPHS at 0x050 to 0x09F (the
scalars are the spec's decision D5, log 6), whatever 80 bytes the open parameter GLYPHS has (left free: D4, log 4). -/
def Obligations.ResetValues : Prop :=
  (∀ a < 4096, memRead State.reset.mem a =
    if 0x050 ≤ a ∧ a < 0x0A0 then glyphs[a - 0x050]? else some 0#8) ∧
  (∀ r, State.reset.reg r = 0#8) ∧ (∀ i : Fin 16, State.reset.stack[i] = 0#16) ∧
  (∀ px py, pixelAt State.reset.FB px py = false) ∧
  State.reset.keys = 0#16 ∧ State.reset.pc = 0x200#16 ∧ State.reset.I = 0#16 ∧ State.reset.sp.val = 0 ∧
  State.reset.DT = 0#8 ∧ State.reset.ST = 0#8 ∧ State.reset.redraw = false ∧ State.reset.err = none

/-- R192: an image of at most 3584 bytes is copied verbatim to 0x200 and nothing else changes; a longer one is reported and
nothing is written (the report carries no state, so the machine keeps the one it had; D26, log 24). -/
def Obligations.LoadProgramCopiesImage : Prop :=
  ∀ (bytes : List Byte) (s : State), Memory.wf s.mem = true →
    (bytes.length ≤ 3584 → ∃ t, loadProgram bytes s = .next t ∧ t = { s with mem := t.mem } ∧
      ∀ a, memRead t.mem a =
        if 0x200 ≤ a ∧ a < 0x200 + bytes.length then bytes[a - 0x200]? else memRead s.mem a) ∧
    (3584 < bytes.length → loadProgram bytes s = .fault .programTooLarge ∧
      runEvents [.host (.loadProgram bytes)] s = s)

/-- R9: `Reset`, `SetKeys` and `ClearRedraw` (D25, log 23; the model's counter `draws` alone survives a reset,
log 19). -/
def Obligations.HostOperations : Prop :=
  ∀ s : State,
    applyHost .reset s = .next { State.reset with draws := s.draws } ∧
    (∀ k, applyHost (.setKeys k) s = .next { s with keys := k }) ∧
    applyHost .clearRedraw s = .next { s with redraw := false }

/-- R206, PARKED AT `a`: every step leaves all state unchanged except that the timers count down to 0, and the machine stays
parked (D31, log 28). -/
def Obligations.ParkedStaysParked : Prop :=
  ∀ (a : Addr12) (s : State), ParkedAt a s = true →
    ∃ t, step s = .next t ∧ t = { s with DT := t.DT, ST := t.ST } ∧
      t.DT.toNat = s.DT.toNat - 1 ∧ t.ST.toNat = s.ST.toNat - 1 ∧ ParkedAt a t = true
end

