-- ==== Sys2Proof/Laws/Codec.lean ====
section
/-! SUPPORT. The small lemmas of the codec: cutting a word into nibbles and putting it together again, for words, literals and addresses. -/

namespace Sys2Proof

/-! ### Bits -/

theorem getLsbD_wordOf (a b c d : Nibble) (i : Nat) : (wordOf a b c d).getLsbD i =
    if i < 4 then d.getLsbD i else if i < 8 then c.getLsbD (i - 4) else if i < 12 then b.getLsbD (i - 8)
    else a.getLsbD (i - 12) := by
  show (a ++ b ++ c ++ d).getLsbD i = _
  rw [BitVec.getLsbD_append, BitVec.getLsbD_append, BitVec.getLsbD_append]
  by_cases h0 : i < 4
  · simp only [h0, if_true]
  · by_cases h1 : i < 8
    · simp only [h0, h1, if_true, if_false, show i - 4 < 4 by omega]
    · by_cases h2 : i < 12
      · simp only [h0, h1, h2, if_true, if_false, show ¬ i - 4 < 4 by omega, show i - 4 - 4 = i - 8 by omega,
          show i - 8 < 4 by omega]
      · simp only [h0, h1, h2, if_false, show ¬ i - 4 < 4 by omega, show i - 4 - 4 = i - 8 by omega,
          show ¬ i - 8 < 4 by omega, show i - 8 - 4 = i - 12 by omega]

theorem getLsbD_byteOf (a b : Nibble) (i : Nat) : (byteOf a b).getLsbD i =
    if i < 4 then b.getLsbD i else a.getLsbD (i - 4) := BitVec.getLsbD_append

theorem getLsbD_addrOf (a b c : Nibble) (i : Nat) : (addrOf a b c).getLsbD i =
    if i < 4 then c.getLsbD i else if i < 8 then b.getLsbD (i - 4) else a.getLsbD (i - 8) := by
  show (a ++ b ++ c).getLsbD i = _
  rw [BitVec.getLsbD_append, BitVec.getLsbD_append]
  by_cases h0 : i < 4
  · simp only [h0, if_true]
  · by_cases h1 : i < 8
    · simp only [h0, h1, if_true, if_false, show i - 4 < 4 by omega]
    · simp only [h0, h1, if_false, show ¬ i - 4 < 4 by omega, show i - 4 - 4 = i - 8 by omega]

theorem getLsbD_opcodeOf (hi lo : Byte) (i : Nat) : (opcodeOf hi lo).getLsbD i =
    if i < 8 then lo.getLsbD i else hi.getLsbD (i - 8) := BitVec.getLsbD_append

/-- Bit `i` of the field of `len` bits that starts at bit `lo`. -/
theorem getLsbD_field {n : Nat} (w : BitVec n) (lo len i : Nat) (hi : i < len) :
    (w.extractLsb' lo len).getLsbD i = w.getLsbD (lo + i) := by
  rw [BitVec.getLsbD_extractLsb']
  simp only [hi, decide_true, Bool.true_and]

/-! ### Words -/

@[simp] theorem nib0_wordOf (a b c d : Nibble) : nib0 (wordOf a b c d) = d := by
  apply BitVec.eq_of_getLsbD_eq
  intro i hi
  rw [nib0, getLsbD_field _ _ _ _ hi, getLsbD_wordOf]
  simp only [hi, Nat.zero_add, if_true]

@[simp] theorem nib1_wordOf (a b c d : Nibble) : nib1 (wordOf a b c d) = c := by
  apply BitVec.eq_of_getLsbD_eq
  intro i hi
  rw [nib1, getLsbD_field _ _ _ _ hi, getLsbD_wordOf]
  simp only [show ¬ 4 + i < 4 by omega, show 4 + i < 8 by omega, show 4 + i - 4 = i by omega, if_true, if_false]

@[simp] theorem nib2_wordOf (a b c d : Nibble) : nib2 (wordOf a b c d) = b := by
  apply BitVec.eq_of_getLsbD_eq
  intro i hi
  rw [nib2, getLsbD_field _ _ _ _ hi, getLsbD_wordOf]
  simp only [show ¬ 8 + i < 4 by omega, show ¬ 8 + i < 8 by omega, show 8 + i < 12 by omega, show 8 + i - 8 = i by omega, if_true, if_false]

@[simp] theorem nib3_wordOf (a b c d : Nibble) : nib3 (wordOf a b c d) = a := by
  apply BitVec.eq_of_getLsbD_eq
  intro i hi
  rw [nib3, getLsbD_field _ _ _ _ hi, getLsbD_wordOf]
  simp only [show ¬ 12 + i < 4 by omega, show ¬ 12 + i < 8 by omega, show ¬ 12 + i < 12 by omega, show 12 + i - 12 = i by omega, if_false]

/-- A word is its four nibbles. -/
theorem wordOf_nibs (w : Word) : wordOf (nib3 w) (nib2 w) (nib1 w) (nib0 w) = w := by
  apply BitVec.eq_of_getLsbD_eq
  intro i hi
  rw [getLsbD_wordOf, nib3, nib2, nib1, nib0]
  split_ifs
  · rw [getLsbD_field _ _ _ _ (by omega)]; congr 1; omega
  · rw [getLsbD_field _ _ _ _ (by omega)]; congr 1; omega
  · rw [getLsbD_field _ _ _ _ (by omega)]; congr 1; omega
  · rw [getLsbD_field _ _ _ _ (by omega)]; congr 1; omega

/-! ### Literals and addresses -/

/-- A literal is its two nibbles. -/
@[simp] theorem byteOf_byteHi_byteLo (kk : Byte) : byteOf (byteHi kk) (byteLo kk) = kk := by
  apply BitVec.eq_of_getLsbD_eq
  intro i hi
  rw [getLsbD_byteOf, byteHi, byteLo]
  split_ifs
  · rw [getLsbD_field _ _ _ _ (by omega)]; congr 1; omega
  · rw [getLsbD_field _ _ _ _ (by omega)]; congr 1; omega

@[simp] theorem byteHi_byteOf (a b : Nibble) : byteHi (byteOf a b) = a := by
  apply BitVec.eq_of_getLsbD_eq
  intro i hi
  rw [byteHi, getLsbD_field _ _ _ _ hi, getLsbD_byteOf, if_neg (by omega)]
  congr 1; omega

@[simp] theorem byteLo_byteOf (a b : Nibble) : byteLo (byteOf a b) = b := by
  apply BitVec.eq_of_getLsbD_eq
  intro i hi
  rw [byteLo, getLsbD_field _ _ _ _ hi, getLsbD_byteOf, if_pos (by omega)]
  congr 1; omega

/-- An address operand is its three nibbles. -/
@[simp] theorem addrOf_nibbles (nnn : Addr12) :
    addrOf (nnn.extractLsb' 8 4) (nnn.extractLsb' 4 4) (nnn.extractLsb' 0 4) = nnn := by
  apply BitVec.eq_of_getLsbD_eq
  intro i hi
  rw [getLsbD_addrOf]
  split_ifs
  · rw [getLsbD_field _ _ _ _ (by omega)]; congr 1; omega
  · rw [getLsbD_field _ _ _ _ (by omega)]; congr 1; omega
  · rw [getLsbD_field _ _ _ _ (by omega)]; congr 1; omega

theorem wordNNN_addrOf (c a b d : Nibble) : wordNNN c (addrOf a b d) = wordOf c a b d := by
  have h2 : (addrOf a b d).extractLsb' 8 4 = a := by
    apply BitVec.eq_of_getLsbD_eq
    intro i hi
    rw [getLsbD_field _ _ _ _ hi, getLsbD_addrOf, if_neg (by omega), if_neg (by omega)]
    congr 1; omega
  have h1 : (addrOf a b d).extractLsb' 4 4 = b := by
    apply BitVec.eq_of_getLsbD_eq
    intro i hi
    rw [getLsbD_field _ _ _ _ hi, getLsbD_addrOf, if_neg (by omega), if_pos (by omega)]
    congr 1; omega
  have h0 : (addrOf a b d).extractLsb' 0 4 = d := by
    apply BitVec.eq_of_getLsbD_eq
    intro i hi
    rw [getLsbD_field _ _ _ _ hi, getLsbD_addrOf, if_pos (by omega)]
    congr 1; omega
  rw [wordNNN, h2, h1, h0]

theorem wordXKK_byteOf (c x a b : Nibble) : wordXKK c x (byteOf a b) = wordOf c x a b := by
  rw [wordXKK, byteHi_byteOf, byteLo_byteOf]

/-! ### Bytes -/

/-- The stored bytes of a word give the word back, high byte first (R54). -/
@[simp] theorem opcodeOf_highByte_lowByte (w : Word) : opcodeOf (highByte w) (lowByte w) = w := by
  apply BitVec.eq_of_getLsbD_eq
  intro i hi
  rw [getLsbD_opcodeOf, highByte, lowByte]
  split_ifs
  · rw [getLsbD_field _ _ _ _ (by omega)]; congr 1; omega
  · rw [getLsbD_field _ _ _ _ (by omega)]; congr 1; omega

@[simp] theorem highByte_opcodeOf (hi lo : Byte) : highByte (opcodeOf hi lo) = hi := by
  apply BitVec.eq_of_getLsbD_eq
  intro i h
  rw [highByte, getLsbD_field _ _ _ _ h, getLsbD_opcodeOf, if_neg (by omega)]
  congr 1; omega

@[simp] theorem lowByte_opcodeOf (hi lo : Byte) : lowByte (opcodeOf hi lo) = lo := by
  apply BitVec.eq_of_getLsbD_eq
  intro i h
  rw [lowByte, getLsbD_field _ _ _ _ h, getLsbD_opcodeOf, if_pos (by omega)]
  congr 1; omega

/-! ### Masks -/

/-- Masking a word nibble by nibble (R75 writes masks whose nibbles are 0 or F). -/
theorem wordOf_and (a b c d e f g h : Nibble) :
    wordOf a b c d &&& wordOf e f g h = wordOf (a &&& e) (b &&& f) (c &&& g) (d &&& h) := by
  apply BitVec.eq_of_getLsbD_eq
  intro i hi
  rw [BitVec.getLsbD_and, getLsbD_wordOf, getLsbD_wordOf, getLsbD_wordOf]
  split_ifs <;> rw [BitVec.getLsbD_and]

end Sys2Proof
end

