-- ==== Sys2Proof/Laws/State.lean ====
section
/-! SUPPORT. What each named update of the state does to each field, true by unfolding; the simp set that keeps proofs from unfolding record updates. -/

namespace Sys2Proof.Machine

@[simp] theorem State.setReg_mem (s : State) (i : Nibble) (v : Byte) : (s.setReg i v).mem = s.mem := rfl
@[simp] theorem State.setReg_V (s : State) (i : Nibble) (v : Byte) : (s.setReg i v).V = s.V.set i.toNat v := rfl
@[simp] theorem State.setReg_I (s : State) (i : Nibble) (v : Byte) : (s.setReg i v).I = s.I := rfl
@[simp] theorem State.setReg_pc (s : State) (i : Nibble) (v : Byte) : (s.setReg i v).pc = s.pc := rfl
@[simp] theorem State.setReg_stack (s : State) (i : Nibble) (v : Byte) : (s.setReg i v).stack = s.stack := rfl
@[simp] theorem State.setReg_sp (s : State) (i : Nibble) (v : Byte) : (s.setReg i v).sp = s.sp := rfl
@[simp] theorem State.setReg_DT (s : State) (i : Nibble) (v : Byte) : (s.setReg i v).DT = s.DT := rfl
@[simp] theorem State.setReg_ST (s : State) (i : Nibble) (v : Byte) : (s.setReg i v).ST = s.ST := rfl
@[simp] theorem State.setReg_keys (s : State) (i : Nibble) (v : Byte) : (s.setReg i v).keys = s.keys := rfl
@[simp] theorem State.setReg_FB (s : State) (i : Nibble) (v : Byte) : (s.setReg i v).FB = s.FB := rfl
@[simp] theorem State.setReg_redraw (s : State) (i : Nibble) (v : Byte) : (s.setReg i v).redraw = s.redraw := rfl
@[simp] theorem State.setReg_err (s : State) (i : Nibble) (v : Byte) : (s.setReg i v).err = s.err := rfl
@[simp] theorem State.setReg_draws (s : State) (i : Nibble) (v : Byte) : (s.setReg i v).draws = s.draws := rfl

@[simp] theorem State.setFlag_mem (s : State) (b : Bool) : (s.setFlag b).mem = s.mem := rfl
@[simp] theorem State.setFlag_V (s : State) (b : Bool) : (s.setFlag b).V = s.V.set 15 (flagByte b) := rfl
@[simp] theorem State.setFlag_I (s : State) (b : Bool) : (s.setFlag b).I = s.I := rfl
@[simp] theorem State.setFlag_pc (s : State) (b : Bool) : (s.setFlag b).pc = s.pc := rfl
@[simp] theorem State.setFlag_stack (s : State) (b : Bool) : (s.setFlag b).stack = s.stack := rfl
@[simp] theorem State.setFlag_sp (s : State) (b : Bool) : (s.setFlag b).sp = s.sp := rfl
@[simp] theorem State.setFlag_DT (s : State) (b : Bool) : (s.setFlag b).DT = s.DT := rfl
@[simp] theorem State.setFlag_ST (s : State) (b : Bool) : (s.setFlag b).ST = s.ST := rfl
@[simp] theorem State.setFlag_keys (s : State) (b : Bool) : (s.setFlag b).keys = s.keys := rfl
@[simp] theorem State.setFlag_FB (s : State) (b : Bool) : (s.setFlag b).FB = s.FB := rfl
@[simp] theorem State.setFlag_redraw (s : State) (b : Bool) : (s.setFlag b).redraw = s.redraw := rfl
@[simp] theorem State.setFlag_err (s : State) (b : Bool) : (s.setFlag b).err = s.err := rfl
@[simp] theorem State.setFlag_draws (s : State) (b : Bool) : (s.setFlag b).draws = s.draws := rfl

@[simp] theorem State.write_mem (s : State) (x : Nibble) (v : Byte) : (s.write x v).mem = s.mem := rfl
@[simp] theorem State.write_V (s : State) (x : Nibble) (v : Byte) : (s.write x v).V = s.V.set x.toNat v := rfl
@[simp] theorem State.write_I (s : State) (x : Nibble) (v : Byte) : (s.write x v).I = s.I := rfl
@[simp] theorem State.write_pc (s : State) (x : Nibble) (v : Byte) : (s.write x v).pc = s.pc + 2#16 := rfl
@[simp] theorem State.write_stack (s : State) (x : Nibble) (v : Byte) : (s.write x v).stack = s.stack := rfl
@[simp] theorem State.write_sp (s : State) (x : Nibble) (v : Byte) : (s.write x v).sp = s.sp := rfl
@[simp] theorem State.write_DT (s : State) (x : Nibble) (v : Byte) : (s.write x v).DT = s.DT := rfl
@[simp] theorem State.write_ST (s : State) (x : Nibble) (v : Byte) : (s.write x v).ST = s.ST := rfl
@[simp] theorem State.write_keys (s : State) (x : Nibble) (v : Byte) : (s.write x v).keys = s.keys := rfl
@[simp] theorem State.write_FB (s : State) (x : Nibble) (v : Byte) : (s.write x v).FB = s.FB := rfl
@[simp] theorem State.write_redraw (s : State) (x : Nibble) (v : Byte) : (s.write x v).redraw = s.redraw := rfl
@[simp] theorem State.write_err (s : State) (x : Nibble) (v : Byte) : (s.write x v).err = s.err := rfl
@[simp] theorem State.write_draws (s : State) (x : Nibble) (v : Byte) : (s.write x v).draws = s.draws := rfl

@[simp] theorem State.setIndex_mem (s : State) (v : Word) : (s.setIndex v).mem = s.mem := rfl
@[simp] theorem State.setIndex_V (s : State) (v : Word) : (s.setIndex v).V = s.V := rfl
@[simp] theorem State.setIndex_I (s : State) (v : Word) : (s.setIndex v).I = v := rfl
@[simp] theorem State.setIndex_pc (s : State) (v : Word) : (s.setIndex v).pc = s.pc := rfl
@[simp] theorem State.setIndex_stack (s : State) (v : Word) : (s.setIndex v).stack = s.stack := rfl
@[simp] theorem State.setIndex_sp (s : State) (v : Word) : (s.setIndex v).sp = s.sp := rfl
@[simp] theorem State.setIndex_DT (s : State) (v : Word) : (s.setIndex v).DT = s.DT := rfl
@[simp] theorem State.setIndex_ST (s : State) (v : Word) : (s.setIndex v).ST = s.ST := rfl
@[simp] theorem State.setIndex_keys (s : State) (v : Word) : (s.setIndex v).keys = s.keys := rfl
@[simp] theorem State.setIndex_FB (s : State) (v : Word) : (s.setIndex v).FB = s.FB := rfl
@[simp] theorem State.setIndex_redraw (s : State) (v : Word) : (s.setIndex v).redraw = s.redraw := rfl
@[simp] theorem State.setIndex_err (s : State) (v : Word) : (s.setIndex v).err = s.err := rfl
@[simp] theorem State.setIndex_draws (s : State) (v : Word) : (s.setIndex v).draws = s.draws := rfl

@[simp] theorem State.jumpTo_mem (s : State) (w : Word) : (s.jumpTo w).mem = s.mem := rfl
@[simp] theorem State.jumpTo_V (s : State) (w : Word) : (s.jumpTo w).V = s.V := rfl
@[simp] theorem State.jumpTo_I (s : State) (w : Word) : (s.jumpTo w).I = s.I := rfl
@[simp] theorem State.jumpTo_pc (s : State) (w : Word) : (s.jumpTo w).pc = w := rfl
@[simp] theorem State.jumpTo_stack (s : State) (w : Word) : (s.jumpTo w).stack = s.stack := rfl
@[simp] theorem State.jumpTo_sp (s : State) (w : Word) : (s.jumpTo w).sp = s.sp := rfl
@[simp] theorem State.jumpTo_DT (s : State) (w : Word) : (s.jumpTo w).DT = s.DT := rfl
@[simp] theorem State.jumpTo_ST (s : State) (w : Word) : (s.jumpTo w).ST = s.ST := rfl
@[simp] theorem State.jumpTo_keys (s : State) (w : Word) : (s.jumpTo w).keys = s.keys := rfl
@[simp] theorem State.jumpTo_FB (s : State) (w : Word) : (s.jumpTo w).FB = s.FB := rfl
@[simp] theorem State.jumpTo_redraw (s : State) (w : Word) : (s.jumpTo w).redraw = s.redraw := rfl
@[simp] theorem State.jumpTo_err (s : State) (w : Word) : (s.jumpTo w).err = s.err := rfl
@[simp] theorem State.jumpTo_draws (s : State) (w : Word) : (s.jumpTo w).draws = s.draws := rfl

@[simp] theorem State.advance_mem (s : State) : (s.advance).mem = s.mem := rfl
@[simp] theorem State.advance_V (s : State) : (s.advance).V = s.V := rfl
@[simp] theorem State.advance_I (s : State) : (s.advance).I = s.I := rfl
@[simp] theorem State.advance_pc (s : State) : (s.advance).pc = s.pc + 2#16 := rfl
@[simp] theorem State.advance_stack (s : State) : (s.advance).stack = s.stack := rfl
@[simp] theorem State.advance_sp (s : State) : (s.advance).sp = s.sp := rfl
@[simp] theorem State.advance_DT (s : State) : (s.advance).DT = s.DT := rfl
@[simp] theorem State.advance_ST (s : State) : (s.advance).ST = s.ST := rfl
@[simp] theorem State.advance_keys (s : State) : (s.advance).keys = s.keys := rfl
@[simp] theorem State.advance_FB (s : State) : (s.advance).FB = s.FB := rfl
@[simp] theorem State.advance_redraw (s : State) : (s.advance).redraw = s.redraw := rfl
@[simp] theorem State.advance_err (s : State) : (s.advance).err = s.err := rfl
@[simp] theorem State.advance_draws (s : State) : (s.advance).draws = s.draws := rfl

@[simp] theorem State.skipIf_mem (s : State) (c : Bool) : (s.skipIf c).mem = s.mem := rfl
@[simp] theorem State.skipIf_V (s : State) (c : Bool) : (s.skipIf c).V = s.V := rfl
@[simp] theorem State.skipIf_I (s : State) (c : Bool) : (s.skipIf c).I = s.I := rfl
@[simp] theorem State.skipIf_pc (s : State) (c : Bool) : (s.skipIf c).pc = if c then s.npc + 2#16 else s.npc := rfl
@[simp] theorem State.skipIf_stack (s : State) (c : Bool) : (s.skipIf c).stack = s.stack := rfl
@[simp] theorem State.skipIf_sp (s : State) (c : Bool) : (s.skipIf c).sp = s.sp := rfl
@[simp] theorem State.skipIf_DT (s : State) (c : Bool) : (s.skipIf c).DT = s.DT := rfl
@[simp] theorem State.skipIf_ST (s : State) (c : Bool) : (s.skipIf c).ST = s.ST := rfl
@[simp] theorem State.skipIf_keys (s : State) (c : Bool) : (s.skipIf c).keys = s.keys := rfl
@[simp] theorem State.skipIf_FB (s : State) (c : Bool) : (s.skipIf c).FB = s.FB := rfl
@[simp] theorem State.skipIf_redraw (s : State) (c : Bool) : (s.skipIf c).redraw = s.redraw := rfl
@[simp] theorem State.skipIf_err (s : State) (c : Bool) : (s.skipIf c).err = s.err := rfl
@[simp] theorem State.skipIf_draws (s : State) (c : Bool) : (s.skipIf c).draws = s.draws := rfl

@[simp] theorem State.raise_mem (s : State) (e : ErrorKind) : (s.raise e).mem = s.mem := rfl
@[simp] theorem State.raise_V (s : State) (e : ErrorKind) : (s.raise e).V = s.V := rfl
@[simp] theorem State.raise_I (s : State) (e : ErrorKind) : (s.raise e).I = s.I := rfl
@[simp] theorem State.raise_pc (s : State) (e : ErrorKind) : (s.raise e).pc = s.pc := rfl
@[simp] theorem State.raise_stack (s : State) (e : ErrorKind) : (s.raise e).stack = s.stack := rfl
@[simp] theorem State.raise_sp (s : State) (e : ErrorKind) : (s.raise e).sp = s.sp := rfl
@[simp] theorem State.raise_DT (s : State) (e : ErrorKind) : (s.raise e).DT = s.DT := rfl
@[simp] theorem State.raise_ST (s : State) (e : ErrorKind) : (s.raise e).ST = s.ST := rfl
@[simp] theorem State.raise_keys (s : State) (e : ErrorKind) : (s.raise e).keys = s.keys := rfl
@[simp] theorem State.raise_FB (s : State) (e : ErrorKind) : (s.raise e).FB = s.FB := rfl
@[simp] theorem State.raise_redraw (s : State) (e : ErrorKind) : (s.raise e).redraw = s.redraw := rfl
@[simp] theorem State.raise_err (s : State) (e : ErrorKind) : (s.raise e).err = some e := rfl
@[simp] theorem State.raise_draws (s : State) (e : ErrorKind) : (s.raise e).draws = s.draws := rfl

@[simp] theorem State.tick_mem (s : State) : (s.tick).mem = s.mem := rfl
@[simp] theorem State.tick_V (s : State) : (s.tick).V = s.V := rfl
@[simp] theorem State.tick_I (s : State) : (s.tick).I = s.I := rfl
@[simp] theorem State.tick_pc (s : State) : (s.tick).pc = s.pc := rfl
@[simp] theorem State.tick_stack (s : State) : (s.tick).stack = s.stack := rfl
@[simp] theorem State.tick_sp (s : State) : (s.tick).sp = s.sp := rfl
@[simp] theorem State.tick_DT (s : State) : (s.tick).DT = tickDown s.DT := rfl
@[simp] theorem State.tick_ST (s : State) : (s.tick).ST = tickDown s.ST := rfl
@[simp] theorem State.tick_keys (s : State) : (s.tick).keys = s.keys := rfl
@[simp] theorem State.tick_FB (s : State) : (s.tick).FB = s.FB := rfl
@[simp] theorem State.tick_redraw (s : State) : (s.tick).redraw = s.redraw := rfl
@[simp] theorem State.tick_err (s : State) : (s.tick).err = s.err := rfl
@[simp] theorem State.tick_draws (s : State) : (s.tick).draws = s.draws := rfl

@[simp] theorem State.nextDraw_mem (s : State) : (s.nextDraw).mem = s.mem := rfl
@[simp] theorem State.nextDraw_V (s : State) : (s.nextDraw).V = s.V := rfl
@[simp] theorem State.nextDraw_I (s : State) : (s.nextDraw).I = s.I := rfl
@[simp] theorem State.nextDraw_pc (s : State) : (s.nextDraw).pc = s.pc := rfl
@[simp] theorem State.nextDraw_stack (s : State) : (s.nextDraw).stack = s.stack := rfl
@[simp] theorem State.nextDraw_sp (s : State) : (s.nextDraw).sp = s.sp := rfl
@[simp] theorem State.nextDraw_DT (s : State) : (s.nextDraw).DT = s.DT := rfl
@[simp] theorem State.nextDraw_ST (s : State) : (s.nextDraw).ST = s.ST := rfl
@[simp] theorem State.nextDraw_keys (s : State) : (s.nextDraw).keys = s.keys := rfl
@[simp] theorem State.nextDraw_FB (s : State) : (s.nextDraw).FB = s.FB := rfl
@[simp] theorem State.nextDraw_redraw (s : State) : (s.nextDraw).redraw = s.redraw := rfl
@[simp] theorem State.nextDraw_err (s : State) : (s.nextDraw).err = s.err := rfl
@[simp] theorem State.nextDraw_draws (s : State) : (s.nextDraw).draws = s.draws + 1 := rfl

end Sys2Proof.Machine
end

