-- ==== Sys2Proof/Laws/Ops.lean ====
section
/-! SUPPORT. What the named operations on registers, stack, timers and operands can do: one lemma for each, to be cited instead of unfolding it. -/

namespace Sys2Proof.Machine

/-! ### Registers -/

theorem State.reg_setReg (s : State) (i : Nibble) (v : Byte) (j : Nibble) :
    (s.setReg i v).reg j = if j = i then v else s.reg j := by
  simp only [State.reg, State.setReg, Vector.getElem_set]
  by_cases h : j = i
  · simp [h]
  · have : ¬ i.toNat = j.toNat := fun e => h (BitVec.eq_of_toNat_eq e).symm
    simp [h, this]

@[simp] theorem State.reg_setReg_self (s : State) (i : Nibble) (v : Byte) : (s.setReg i v).reg i = v := by
  simp [State.reg_setReg]

theorem State.reg_setFlag (s : State) (b : Bool) (j : Nibble) :
    (s.setFlag b).reg j = if j = vf then flagByte b else s.reg j := State.reg_setReg s vf (flagByte b) j

theorem State.reg_write (s : State) (x : Nibble) (v : Byte) (j : Nibble) :
    (s.write x v).reg j = if j = x then v else s.reg j := State.reg_setReg s x v j

@[simp] theorem State.reg_setIndex (s : State) (v : Word) (j : Nibble) : (s.setIndex v).reg j = s.reg j := rfl

@[simp] theorem State.reg_jumpTo (s : State) (w : Word) (j : Nibble) : (s.jumpTo w).reg j = s.reg j := rfl

@[simp] theorem State.reg_advance (s : State) (j : Nibble) : s.advance.reg j = s.reg j := rfl

@[simp] theorem State.reg_skipIf (s : State) (c : Bool) (j : Nibble) : (s.skipIf c).reg j = s.reg j := rfl

@[simp] theorem State.reg_raise (s : State) (e : ErrorKind) (j : Nibble) : (s.raise e).reg j = s.reg j := rfl

@[simp] theorem State.reg_tick (s : State) (j : Nibble) : s.tick.reg j = s.reg j := rfl

@[simp] theorem State.reg_nextDraw (s : State) (j : Nibble) : s.nextDraw.reg j = s.reg j := rfl

@[simp] theorem State.npc_eq (s : State) : s.npc = s.pc + 2#16 := rfl

/-- Register files that agree on every register are equal. -/
theorem RegFile.ext {v w : RegFile} (h : ∀ r : Nibble, v[r.toNat] = w[r.toNat]) : v = w := by
  apply Vector.ext
  intro i hi
  have := h (BitVec.ofNat 4 i)
  simpa [BitVec.toNat_ofNat, Nat.mod_eq_of_lt hi] using this

/-- What a block of registers holds after `setRegsFrom`: register `j` takes byte `j - k` where there is one and `take` says so. -/
theorem setRegsFrom_get (take : Nat → Bool) (v : RegFile) (k : Nat) (bs : List Byte) (j : Nat) (hj : j < 16) :
    (setRegsFrom take v k bs)[j] =
      if h : k ≤ j ∧ j - k < bs.length ∧ take j = true then bs[j - k]'h.2.1 else v[j] := by
  induction bs generalizing k v with
  | nil => simp [setRegsFrom]
  | cons b bs ih =>
    rw [setRegsFrom, ih]
    have hv : (if take k = true then v.setIfInBounds k b else v)[j] = if take k = true ∧ k = j then b else v[j] := by
      by_cases ht : take k = true
      · simp [ht, Vector.getElem_setIfInBounds]
      · simp [ht]
    rw [hv]
    by_cases hjk : j = k
    · subst hjk
      rw [dif_neg (by omega)]
      by_cases ht : take j = true
      · rw [if_pos ⟨ht, rfl⟩, dif_pos ⟨Nat.le_refl _, by simp, ht⟩]
        simp
      · rw [if_neg (fun h => ht h.1), dif_neg (fun h => ht h.2.2)]
    · rw [if_neg (fun h => hjk h.2.symm)]
      by_cases hc : k + 1 ≤ j ∧ j - (k + 1) < bs.length ∧ take j = true
      · have e : j - k = j - (k + 1) + 1 := by omega
        rw [dif_pos hc, dif_pos ⟨by omega, by rw [List.length_cons]; omega, hc.2.2⟩]
        simp only [e, List.getElem_cons_succ]
      · rw [dif_neg hc, dif_neg]
        rintro ⟨h1, h2, h3⟩
        rw [List.length_cons] at h2
        exact hc ⟨by omega, by omega, h3⟩

@[simp] theorem State.regBlock_length (s : State) (x : Nibble) : (s.regBlock x).length = x.toNat + 1 := by
  have := x.isLt
  simp [State.regBlock]
  omega

theorem State.regBlock_get (s : State) (x : Nibble) (k : Nat) (hk : k < (s.regBlock x).length) (h16 : k < 16) :
    (s.regBlock x)[k] = s.reg (BitVec.ofNat 4 k) := by
  simp [State.regBlock, State.reg, BitVec.toNat_ofNat, Nat.mod_eq_of_lt h16]

@[simp] theorem decimalDigits_length (v : Byte) : (decimalDigits v).length = 3 := rfl

/-! ### The stack -/

/-- A push that succeeds writes one entry, the first free one, and counts it. -/
theorem State.push_eq_some {s t : State} {v : Word} (h : s.push v = some t) :
    ∃ hs : s.sp.val < 16, t = { s with stack := s.stack.set s.sp.val v, sp := ⟨s.sp.val + 1, by omega⟩ } := by
  unfold State.push at h
  split at h
  · exact ⟨by assumption, (Option.some.inj h).symm⟩
  · cases h

theorem State.push_eq_none_iff (s : State) (v : Word) : s.push v = none ↔ s.sp.val = 16 := by
  have := s.sp.isLt
  unfold State.push
  split
  · simp; omega
  · simp; omega

/-- A pop that succeeds reads the most recent entry and changes `sp` alone. -/
theorem State.pop_eq_some {s t : State} {v : Word} (h : s.pop = some (v, t)) :
    0 < s.sp.val ∧ s.stack[s.sp.val - 1]? = some v ∧ t = { s with sp := t.sp } ∧ t.sp.val = s.sp.val - 1 := by
  unfold State.pop at h
  split at h
  · rename_i hs
    simp only [Option.some.injEq, Prod.mk.injEq] at h
    obtain ⟨h1, h2⟩ := h
    subst h2
    refine ⟨hs, ?_, rfl, rfl⟩
    rw [← h1]
    exact Vector.getElem?_eq_getElem _
  · cases h

theorem State.pop_eq_none_iff (s : State) : s.pop = none ↔ s.sp.val = 0 := by
  unfold State.pop
  split
  · simp; omega
  · simp; omega

/-! ### Timers -/

/-- A tick takes one off a running timer and leaves 0 at 0 (R28, R176). -/
theorem tickDown_toNat (t : Byte) : (tickDown t).toNat = t.toNat - 1 := by
  unfold tickDown
  split
  · subst_vars; rfl
  · rename_i h
    have h0 : t.toNat ≠ 0 := fun e => h (BitVec.eq_of_toNat_eq (by simpa using e))
    have := t.isLt
    rw [BitVec.toNat_sub]
    simp
    omega

theorem State.timerPhase_of_halted {s : State} (h : s.halted = true) : s.timerPhase = s := by simp [State.timerPhase, h]

theorem State.timerPhase_of_running {s : State} (h : s.halted = false) : s.timerPhase = s.tick := by
  simp [State.timerPhase, h]

/-! ### Block instructions -/

/-- Everything `storeThrough` can do: it completes with the block stored, or it takes OutOfBounds. -/
theorem storeThrough_cases (p : PartialEffects) (bytes : List Byte) (s : State) :
    (∃ m, storeBlock s.mem s.dataAddr bytes = some m ∧ storeThrough p bytes s = { s with mem := m, pc := s.pc + 2#16 }) ∨
    (storeBlock s.mem s.dataAddr bytes = none ∧
      storeThrough p bytes s =
        { s with
          mem := storePrefix (partialTake p s.draws) s.mem s.dataAddr 0 bytes
          draws := s.draws + 1
          err := some .outOfBounds }) := by
  unfold storeThrough
  split
  · exact .inl ⟨_, by assumption, rfl⟩
  · exact .inr ⟨by assumption, rfl⟩

/-- Everything `loadThrough` can do: it completes with the block loaded, or it takes OutOfBounds. -/
theorem loadThrough_cases (p : PartialEffects) (x : Nibble) (s : State) :
    (∃ bytes, loadBlock s.mem s.dataAddr (x.toNat + 1) = some bytes ∧
      loadThrough p x s = { s with V := setRegsFrom (fun _ => true) s.V 0 bytes, pc := s.pc + 2#16 }) ∨
    (loadBlock s.mem s.dataAddr (x.toNat + 1) = none ∧
      loadThrough p x s =
        { s with
          V := setRegsFrom (partialTake p s.draws) s.V 0 (loadPrefix s.mem s.dataAddr (x.toNat + 1))
          draws := s.draws + 1
          err := some .outOfBounds }) := by
  unfold loadThrough
  split
  · exact .inl ⟨_, by assumption, rfl⟩
  · exact .inr ⟨by assumption, rfl⟩

/-! ### Keys -/

theorem mem_pressedKeys (keys : Word) (k : Nat) : k ∈ pressedKeys keys ↔ k < 16 ∧ keyDown keys k = true := by
  unfold pressedKeys
  rw [List.mem_filter]
  refine and_congr_left fun _ => ?_
  simp only [List.mem_cons, List.not_mem_nil, or_false]
  omega

/-- The pressed keys come in ascending order. -/
theorem pressedKeys_sorted (keys : Word) : (pressedKeys keys).Pairwise (· < ·) :=
  List.Pairwise.filter _ (by decide)

theorem pressedKeys_eq_nil_iff (keys : Word) : pressedKeys keys = [] ↔ keys = 0#16 := by
  constructor
  · intro h
    apply BitVec.eq_of_getLsbD_eq
    intro i hi
    by_contra hb
    have : i ∈ pressedKeys keys := (mem_pressedKeys keys i).mpr ⟨hi, by simpa [keyDown] using hb⟩
    simp [h] at this
  · rintro rfl
    decide

/-- No key is picked exactly when none is down (R152). -/
theorem pickKey_eq_none_iff (p : KeyPick) (n : Nat) (keys : Word) : pickKey p n keys = none ↔ keys = 0#16 := by
  rw [← pressedKeys_eq_nil_iff]
  unfold pickKey
  split
  · simp [*]
  · simp [*]
  · rename_i k ks _ h
    rw [h]
    cases p
    · simp only [List.getElem?_eq_none_iff, reduceCtorEq, iff_false, Nat.not_le]
      exact Nat.mod_lt _ (by simp)
    · simp
    · simp

/-- A picked key is one of the pressed keys, under every setting (R152). -/
theorem pickKey_mem {p : KeyPick} {n : Nat} {keys : Word} {k : Nat} (h : pickKey p n keys = some k) :
    k ∈ pressedKeys keys := by
  unfold pickKey at h
  split at h
  · cases h
  · rename_i k' hk
    simp only [Option.some.injEq] at h
    simp [hk, h]
  · rename_i k' ks _ hk
    rw [hk]
    cases p with
    | any => exact List.mem_of_getElem? h
    | lowest =>
      simp only [Option.some.injEq] at h
      simp [h]
    | highest => exact List.mem_of_getLast? h

end Sys2Proof.Machine
end

