-- ==== Sys2Proof/Laws/Display.lean ====
section
/-! SUPPORT. What drawing a sprite does, pixel by pixel: each covered pixel is toggled once, and a collision is a covered pixel that was lit. -/

namespace Sys2Proof.Machine

theorem pixelAt_togglePixel (fb : Screen) (x : Fin 64) (y : Fin 32) (px : Fin 64) (py : Fin 32) :
    pixelAt (togglePixel fb x y) px py = (pixelAt fb px py ^^ decide ((px, py) = (x, y))) := by
  unfold pixelAt togglePixel
  by_cases hy : y = py
  · subst hy
    simp [Fin.ext_iff, eq_comm]
  · have hy' : ¬ (y.val = py.val) := fun h => hy (Fin.ext h)
    simp [Fin.getElem_fin, hy', show ¬ py = y from fun h => hy h.symm]

/-! ### A drawing as the list of pixels it toggles -/

/-- Toggle a list of pixels in order, collecting collisions. -/
def toggleAll (ts : List (Fin 64 × Fin 32)) (canvas : Screen × Bool) : Screen × Bool :=
  ts.foldl (fun cv t => (togglePixel cv.1 t.1 t.2, cv.2 || pixelAt cv.1 t.1 t.2)) canvas

/-- Pixels without repetition: each is toggled once, and collides exactly when it was lit. -/
theorem toggleAll_spec {ts : List (Fin 64 × Fin 32)} (h : ts.Nodup) (canvas : Screen × Bool) :
    (∀ px py, pixelAt (toggleAll ts canvas).1 px py = (pixelAt canvas.1 px py ^^ decide ((px, py) ∈ ts))) ∧
      (toggleAll ts canvas).2 = (canvas.2 || ts.any fun t => pixelAt canvas.1 t.1 t.2) := by
  induction ts generalizing canvas with
  | nil => simp [toggleAll]
  | cons t ts ih =>
    obtain ⟨hnot, hnd⟩ := List.nodup_cons.mp h
    obtain ⟨ih1, ih2⟩ := ih hnd (togglePixel canvas.1 t.1 t.2, canvas.2 || pixelAt canvas.1 t.1 t.2)
    have hstep : toggleAll (t :: ts) canvas
        = toggleAll ts (togglePixel canvas.1 t.1 t.2, canvas.2 || pixelAt canvas.1 t.1 t.2) := rfl
    rw [hstep]
    constructor
    · intro px py
      rw [ih1, pixelAt_togglePixel]
      by_cases hp : (px, py) = t
      · subst hp
        simp [hnot]
      · simp [hp]
    · rw [ih2, List.any_cons, ← Bool.or_assoc]
      congr 1
      rw [Bool.eq_iff_iff, List.any_eq_true, List.any_eq_true]
      refine exists_congr fun u => and_congr_right fun hu => ?_
      have hne : ¬ u = t := fun e => hnot (e ▸ hu)
      rw [pixelAt_togglePixel]
      simp [hne]

/-- The positions of the set bits of a sprite at `(x0, cy)`, before the edge rule. -/
def spots (x0 : Nat) : Nat → List Byte → List (Nat × Nat)
  | _, [] => []
  | cy, b :: bs => (([0, 1, 2, 3, 4, 5, 6, 7].filter fun c => b.getLsbD (7 - c)).map fun c => (x0 + c, cy)) ++ spots x0 (cy + 1) bs

theorem toggleAll_append (ts us : List (Fin 64 × Fin 32)) (canvas : Screen × Bool) :
    toggleAll (ts ++ us) canvas = toggleAll us (toggleAll ts canvas) := by simp [toggleAll]

theorem plot_eq_toggleAll (edge : DrwEdge) (cx cy : Nat) (canvas : Screen × Bool) :
    plot edge cx cy canvas = toggleAll ((place edge cx cy).toList) canvas := by
  unfold plot
  split <;> simp [toggleAll, *]

theorem drawColumns_eq_toggleAll (edge : DrwEdge) (x0 cy : Nat) (b : Byte) (cs : List Nat) (canvas : Screen × Bool) :
    drawColumns edge x0 cy b cs canvas =
      toggleAll ((((cs.filter fun c => b.getLsbD (7 - c)).map fun c => (x0 + c, cy))).filterMap
        fun p => place edge p.1 p.2) canvas := by
  induction cs generalizing canvas with
  | nil => rfl
  | cons c cs ih =>
    rw [drawColumns, ih]
    by_cases hb : b.getLsbD (7 - c) = true
    · rw [List.filter_cons, if_pos hb, if_pos hb, List.map_cons, List.filterMap_cons, plot_eq_toggleAll]
      cases place edge (x0 + c) cy <;> simp [toggleAll]
    · rw [List.filter_cons, if_neg hb, if_neg hb]

theorem drawRows_eq_toggleAll (edge : DrwEdge) (x0 cy : Nat) (bs : List Byte) (canvas : Screen × Bool) :
    drawRows edge x0 cy bs canvas = toggleAll ((spots x0 cy bs).filterMap fun p => place edge p.1 p.2) canvas := by
  induction bs generalizing cy canvas with
  | nil => rfl
  | cons b bs ih =>
    rw [drawRows, ih, spots, List.filterMap_append, toggleAll_append, drawColumns_eq_toggleAll]

theorem mem_spots (x0 cy : Nat) (bs : List Byte) (p : Nat × Nat) :
    p ∈ spots x0 cy bs ↔
      ∃ r c, ∃ hr : r < bs.length, c < 8 ∧ bs[r].getLsbD (7 - c) = true ∧ p = (x0 + c, cy + r) := by
  induction bs generalizing cy with
  | nil => simp [spots]
  | cons b bs ih =>
    rw [spots, List.mem_append, ih, List.mem_map]
    constructor
    · rintro (⟨c, hc, rfl⟩ | ⟨r, c, hr, hc, hb, rfl⟩)
      · rw [List.mem_filter] at hc
        refine ⟨0, c, by simp, ?_, hc.2, rfl⟩
        have := hc.1
        simp only [List.mem_cons, List.not_mem_nil, or_false] at this
        omega
      · exact ⟨r + 1, c, by simpa using hr, hc, hb, by rw [Prod.mk.injEq]; omega⟩
    · rintro ⟨r, c, hr, hc, hb, rfl⟩
      cases r with
      | zero =>
        refine .inl ⟨c, List.mem_filter.mpr ⟨?_, hb⟩, rfl⟩
        simp only [List.mem_cons, List.not_mem_nil, or_false]
        omega
      | succ r => exact .inr ⟨r, c, by simpa using hr, hc, hb, by rw [Prod.mk.injEq]; omega⟩

theorem spots_nodup (x0 cy : Nat) (bs : List Byte) : (spots x0 cy bs).Nodup := by
  induction bs generalizing cy with
  | nil => simp [spots]
  | cons b bs ih =>
    rw [spots]
    refine List.Nodup.append ?_ (ih (cy + 1)) ?_
    · refine List.Nodup.map (fun a b h => ?_) (List.Nodup.filter _ (by decide))
      have := (Prod.mk.inj h).1
      omega
    · intro p hp hq
      obtain ⟨c, -, rfl⟩ := List.mem_map.mp hp
      obtain ⟨r, c', -, -, -, h⟩ := (mem_spots _ _ _ _).mp hq
      have := (Prod.mk.inj h).2
      omega

theorem place_eq_some {edge : DrwEdge} {cx cy : Nat} {p : Fin 64 × Fin 32} (h : place edge cx cy = some p) :
    p.1.val = cx % 64 ∧ p.2.val = cy % 32 := by
  unfold place at h
  split at h
  · rename_i hc
    simp only [Option.some.injEq] at h
    subst h
    exact ⟨(Nat.mod_eq_of_lt hc.1).symm, (Nat.mod_eq_of_lt hc.2).symm⟩
  · cases edge with
    | wrap =>
      simp only [Option.some.injEq] at h
      subst h
      exact ⟨rfl, rfl⟩
    | clip => cases h

theorem targets_nodup (edge : DrwEdge) (x0 cy : Nat) (bs : List Byte) (h : bs.length ≤ 32) :
    ((spots x0 cy bs).filterMap fun p => place edge p.1 p.2).Nodup := by
  rw [List.Nodup, List.pairwise_filterMap]
  refine List.Pairwise.imp_of_mem ?_ (spots_nodup x0 cy bs)
  intro p q hp hq hne t ht u hu htu
  subst htu
  obtain ⟨r, c, hr, hc, -, rfl⟩ := (mem_spots _ _ _ _).mp hp
  obtain ⟨r', c', hr', hc', -, rfl⟩ := (mem_spots _ _ _ _).mp hq
  obtain ⟨h1, h2⟩ := place_eq_some ht
  obtain ⟨h3, h4⟩ := place_eq_some hu
  apply hne
  simp only at h1 h2 h3 h4
  rw [Prod.mk.injEq]
  omega

/-- The pixels a sprite's set bits fall on: bit `7 - c` of row `r`, placed from `(vx mod 64, vy mod 32)` (R141, R142). -/
def Covers (edge : DrwEdge) (vx vy : Byte) (rows : List Byte) (px : Fin 64) (py : Fin 32) : Prop :=
  ∃ r c, ∃ hr : r < rows.length, c < 8 ∧ rows[r].getLsbD (7 - c) = true ∧
    place edge (vx.toNat % 64 + c) (vy.toNat % 32 + r) = some (px, py)

theorem mem_targets_iff (edge : DrwEdge) (vx vy : Byte) (rows : List Byte) (px : Fin 64) (py : Fin 32) :
    (px, py) ∈ ((spots (vx.toNat % 64) (vy.toNat % 32) rows).filterMap fun p => place edge p.1 p.2) ↔
      Covers edge vx vy rows px py := by
  rw [List.mem_filterMap]
  constructor
  · rintro ⟨p, hp, hpl⟩
    obtain ⟨r, c, hr, hc, hb, rfl⟩ := (mem_spots _ _ _ _).mp hp
    exact ⟨r, c, hr, hc, hb, hpl⟩
  · rintro ⟨r, c, hr, hc, hb, hpl⟩
    exact ⟨_, (mem_spots _ _ _ _).mpr ⟨r, c, hr, hc, hb, rfl⟩, hpl⟩

/-- Drawing a sprite of at most 32 rows changes exactly the covered pixels, and collides exactly when one of them was lit. -/
theorem drawSprite_spec (edge : DrwEdge) (vx vy : Byte) (rows : List Byte) (fb : Screen) (h : rows.length ≤ 32) :
    (∀ px py, pixelAt (drawSprite edge vx vy rows fb).1 px py ≠ pixelAt fb px py ↔ Covers edge vx vy rows px py) ∧
      ((drawSprite edge vx vy rows fb).2 = true ↔ ∃ px py, Covers edge vx vy rows px py ∧ pixelAt fb px py = true) := by
  unfold drawSprite
  rw [drawRows_eq_toggleAll]
  obtain ⟨h1, h2⟩ := toggleAll_spec (targets_nodup edge (vx.toNat % 64) (vy.toNat % 32) rows h) (fb, false)
  constructor
  · intro px py
    rw [h1, ← mem_targets_iff]
    cases pixelAt fb px py <;> simp
  · rw [h2, Bool.false_or, List.any_eq_true]
    constructor
    · rintro ⟨⟨px, py⟩, hm, hl⟩
      exact ⟨px, py, (mem_targets_iff _ _ _ _ _ _).mp hm, hl⟩
    · rintro ⟨px, py, hm, hl⟩
      exact ⟨(px, py), (mem_targets_iff _ _ _ _ _ _).mpr hm, hl⟩

/-- Screens that agree on every pixel are equal. -/
theorem Screen.ext {f g : Screen} (h : ∀ px py, pixelAt f px py = pixelAt g px py) : f = g := by
  apply Vector.ext
  intro y hy
  apply BitVec.eq_of_getLsbD_eq
  intro x hx
  exact h ⟨x, hx⟩ ⟨y, hy⟩

end Sys2Proof.Machine
end

