-- ==== Sys2Proof/Laws/Memory.lean ====
section
/-! SUPPORT. The laws of memory: a read after a write, the canonical form under every operation, equal contents are equal data, and what the block accesses do. -/

namespace Sys2Proof.Machine

/-! ### One byte -/

/-- Inside the glyph area the reset contents are the glyph set's bytes. -/
theorem resetByteOf_glyph (g : Vector Byte 80) {a : Nat} (h : 0x050 ≤ a ∧ a < 0x0A0) :
    g[a - 0x050]? = some (resetByteOf g a) := by
  rw [resetByteOf, dif_pos h, Vector.getElem?_eq_getElem (by omega)]

/-- Outside it they are 0, whatever the glyph set. -/
theorem resetByteOf_other (g : Vector Byte 80) {a : Nat} (h : ¬ (0x050 ≤ a ∧ a < 0x0A0)) : resetByteOf g a = 0#8 :=
  dif_neg h

@[simp] theorem Memory.read_nil (a : Nat) : Memory.read [] a = resetByte a := rfl

/-- The cells of a memory that rises from `lo` all lie at `lo` or above, so a lower address is unlisted. -/
theorem Memory.read_below {m : Memory} {lo a : Nat} (h : Memory.wfFrom lo m = true) (ha : a < lo) :
    Memory.read m a = resetByte a := by
  induction m generalizing lo with
  | nil => rfl
  | cons c m ih =>
    obtain ⟨b, v⟩ := c
    simp only [Memory.wfFrom, Bool.and_eq_true, decide_eq_true_eq] at h
    have hb : a ≠ b := by omega
    simp only [Memory.read, if_neg hb]
    exact ih h.2 (by omega)

theorem Memory.wfFrom_mono {m : Memory} {lo lo' : Nat} (h : Memory.wfFrom lo m = true) (hl : lo' ≤ lo) :
    Memory.wfFrom lo' m = true := by
  cases m with
  | nil => rfl
  | cons c m =>
    obtain ⟨b, v⟩ := c
    simp only [Memory.wfFrom, Bool.and_eq_true, decide_eq_true_eq] at h ⊢
    exact ⟨⟨⟨by omega, h.1.1.2⟩, h.1.2⟩, h.2⟩

theorem Memory.read_consCell {m : Memory} {a : Nat} (v : Byte) (h : Memory.wfFrom (a + 1) m = true) (b : Nat) :
    Memory.read (Memory.cons a v m) b = if b = a then v else Memory.read m b := by
  unfold Memory.cons
  split
  · split
    · subst_vars; exact Memory.read_below h (by omega)
    · rfl
  · rfl

theorem Memory.wfFrom_consCell {m : Memory} {lo a : Nat} (v : Byte) (h : Memory.wfFrom (a + 1) m = true) (hl : lo ≤ a)
    (ha : a < 4096) : Memory.wfFrom lo (Memory.cons a v m) = true := by
  unfold Memory.cons
  split
  · exact Memory.wfFrom_mono h (by omega)
  · simp only [Memory.wfFrom, Bool.and_eq_true, decide_eq_true_eq]
    exact ⟨⟨⟨hl, ha⟩, by assumption⟩, h⟩

/-- A write keeps the canonical form. -/
theorem Memory.wfFrom_write {m : Memory} {lo a : Nat} (v : Byte) (h : Memory.wfFrom lo m = true) (hl : lo ≤ a)
    (ha : a < 4096) : Memory.wfFrom lo (Memory.write m a v) = true := by
  induction m generalizing lo with
  | nil => exact Memory.wfFrom_consCell v rfl hl ha
  | cons c m ih =>
    obtain ⟨b, w⟩ := c
    have h0 := h
    simp only [Memory.wfFrom, Bool.and_eq_true, decide_eq_true_eq] at h
    unfold Memory.write
    split
    · refine Memory.wfFrom_consCell v ?_ hl ha
      simp only [Memory.wfFrom, Bool.and_eq_true, decide_eq_true_eq]
      exact ⟨⟨⟨by omega, h.1.1.2⟩, h.1.2⟩, h.2⟩
    · split
      · subst_vars; exact Memory.wfFrom_consCell v h.2 hl ha
      · simp only [Memory.wfFrom, Bool.and_eq_true, decide_eq_true_eq]
        exact ⟨h.1, ih h.2 (by omega)⟩

theorem Memory.wf_write {m : Memory} (a : Nat) (v : Byte) (h : Memory.wf m = true) (ha : a < 4096) :
    Memory.wf (Memory.write m a v) = true := Memory.wfFrom_write v h (Nat.zero_le a) ha

theorem Memory.read_write_from {m : Memory} {lo : Nat} (a : Nat) (v : Byte) (h : Memory.wfFrom lo m = true) (b : Nat) :
    Memory.read (Memory.write m a v) b = if b = a then v else Memory.read m b := by
  induction m generalizing lo with
  | nil => exact Memory.read_consCell v rfl b
  | cons c m ih =>
    obtain ⟨d, w⟩ := c
    have h0 := h
    simp only [Memory.wfFrom, Bool.and_eq_true, decide_eq_true_eq] at h
    unfold Memory.write
    split
    · refine Memory.read_consCell v ?_ b
      simp only [Memory.wfFrom, Bool.and_eq_true, decide_eq_true_eq]
      exact ⟨⟨⟨by omega, h.1.1.2⟩, h.1.2⟩, h.2⟩
    · split
      · subst_vars
        rw [Memory.read_consCell v h.2 b]
        simp only [Memory.read]
        split <;> rfl
      · simp only [Memory.read, ih h.2]
        split
        · subst_vars
          rw [if_neg (by omega)]
        · rfl

/-- A read after a write: the byte written at its address, every other byte as before (R52, R60). -/
theorem Memory.read_write {m : Memory} (a : Nat) (v : Byte) (h : Memory.wf m = true) (b : Nat) :
    Memory.read (Memory.write m a v) b = if b = a then v else Memory.read m b := Memory.read_write_from a v h b

/-- In canonical form, memories that read the same everywhere are the same list. -/
theorem Memory.ext_from {m n : Memory} {lo : Nat} (hm : Memory.wfFrom lo m = true) (hn : Memory.wfFrom lo n = true)
    (h : ∀ a, Memory.read m a = Memory.read n a) : m = n := by
  induction m generalizing n lo with
  | nil =>
    cases n with
    | nil => rfl
    | cons c n =>
      obtain ⟨b, w⟩ := c
      simp only [Memory.wfFrom, Bool.and_eq_true, decide_eq_true_eq] at hn
      have := h b
      simp only [Memory.read, if_pos] at this
      exact absurd this.symm hn.1.2
  | cons c m ih =>
    obtain ⟨b, w⟩ := c
    have hm' := hm
    simp only [Memory.wfFrom, Bool.and_eq_true, decide_eq_true_eq] at hm
    cases n with
    | nil =>
      have := h b
      simp only [Memory.read, if_pos] at this
      exact absurd this hm.1.2
    | cons d n =>
      obtain ⟨e, u⟩ := d
      have hn' := hn
      simp only [Memory.wfFrom, Bool.and_eq_true, decide_eq_true_eq] at hn
      have hbe : b = e := by
        rcases Nat.lt_trichotomy b e with hlt | heq | hgt
        · have := h b
          simp only [Memory.read, if_pos, if_neg (show ¬ b = e by omega)] at this
          rw [Memory.read_below hn.2 (by omega)] at this
          exact absurd this hm.1.2
        · exact heq
        · have := h e
          simp only [Memory.read, if_pos, if_neg (show ¬ e = b by omega)] at this
          rw [Memory.read_below hm.2 (by omega)] at this
          exact absurd this.symm hn.1.2
      subst hbe
      have hw : w = u := by
        have := h b
        simpa only [Memory.read, if_pos] using this
      subst hw
      congr 1
      refine ih hm.2 hn.2 fun a => ?_
      by_cases hab : a = b
      · subst hab
        rw [Memory.read_below hm.2 (by omega), Memory.read_below hn.2 (by omega)]
      · have := h a
        simpa only [Memory.read, if_neg hab] using this

theorem Memory.wf_nil : Memory.wf [] = true := rfl

/-! ### Block accesses -/

theorem memRead_of_lt {m : Memory} {a : Nat} (h : a < 4096) : memRead m a = some (Memory.read m a) := if_pos h

theorem memRead_of_ge {m : Memory} {a : Nat} (h : 4096 ≤ a) : memRead m a = none := if_neg (by omega)

theorem memWrite_of_lt {m : Memory} {a : Nat} (v : Byte) (h : a < 4096) : memWrite m a v = some (Memory.write m a v) :=
  if_pos h

theorem memWrite_of_ge {m : Memory} {a : Nat} (v : Byte) (h : 4096 ≤ a) : memWrite m a v = none := if_neg (by omega)

/-- A block read completes exactly when it is empty or ends inside memory. -/
theorem loadBlock_eq_none_iff (m : Memory) (a n : Nat) : loadBlock m a n = none ↔ 0 < n ∧ 4096 < a + n := by
  induction n generalizing a with
  | zero => simp [loadBlock]
  | succ n ih =>
    unfold loadBlock memRead
    by_cases ha : a < 4096
    · simp only [if_pos ha, Option.map_eq_none_iff, ih]
      omega
    · simp only [if_neg ha, true_iff]
      omega

/-- What a completed block read answers: `n` bytes, byte `k` from address `a + k`. -/
theorem loadBlock_spec {m : Memory} {a n : Nat} {bs : List Byte} (h : loadBlock m a n = some bs) :
    bs.length = n ∧ ∀ k, (hk : k < bs.length) → a + k < 4096 ∧ bs[k] = Memory.read m (a + k) := by
  induction n generalizing a bs with
  | zero =>
    simp only [loadBlock, Option.some.injEq] at h
    subst h
    exact ⟨rfl, fun k hk => absurd hk (by simp)⟩
  | succ n ih =>
    unfold loadBlock memRead at h
    by_cases ha : a < 4096
    · simp only [if_pos ha, Option.map_eq_some_iff] at h
      obtain ⟨cs, hcs, rfl⟩ := h
      obtain ⟨hlen, hget⟩ := ih hcs
      refine ⟨by simp [hlen], fun k hk => ?_⟩
      cases k with
      | zero => exact ⟨ha, rfl⟩
      | succ k =>
        obtain ⟨h1, h2⟩ := hget k (by simpa using hk)
        refine ⟨by omega, ?_⟩
        rw [List.getElem_cons_succ, h2]
        congr 1
        omega
    · simp [if_neg ha] at h

/-- What a block read that fails has read: one byte for every address in range. -/
theorem loadPrefix_spec (m : Memory) (a n : Nat) :
    (loadPrefix m a n).length = min n (4096 - a) ∧
      ∀ k, (hk : k < (loadPrefix m a n).length) → (loadPrefix m a n)[k] = Memory.read m (a + k) := by
  induction n generalizing a with
  | zero => exact ⟨by simp [loadPrefix], fun k hk => absurd hk (by simp [loadPrefix])⟩
  | succ n ih =>
    obtain ⟨hlen, hget⟩ := ih (a + 1)
    unfold loadPrefix memRead
    by_cases ha : a < 4096
    · simp only [if_pos ha, List.length_cons]
      refine ⟨by omega, fun k hk => ?_⟩
      cases k with
      | zero => rfl
      | succ k =>
        rw [List.getElem_cons_succ, hget k (by omega)]
        congr 1
        omega
    · simp only [if_neg ha, List.length_nil]
      exact ⟨by omega, fun k hk => absurd hk (by omega)⟩

/-- A block store completes exactly when it is empty or ends inside memory. -/
theorem storeBlock_eq_none_iff (m : Memory) (a : Nat) (bs : List Byte) :
    storeBlock m a bs = none ↔ 0 < bs.length ∧ 4096 < a + bs.length := by
  induction bs generalizing a m with
  | nil => simp [storeBlock]
  | cons b bs ih =>
    unfold storeBlock memWrite
    by_cases ha : a < 4096
    · simp only [if_pos ha, ih, List.length_cons]
      omega
    · simp only [if_neg ha, true_iff, List.length_cons]
      omega

/-- What a store that may fail part-way leaves: it keeps the canonical form, and every address reads as before unless it is
in range, belongs to an element and that element was taken. -/
theorem storePrefix_spec (take : Nat → Bool) {m : Memory} (a k : Nat) (bs : List Byte) (hm : Memory.wf m = true) :
    Memory.wf (storePrefix take m a k bs) = true ∧
      ∀ d, Memory.read (storePrefix take m a k bs) d =
        if h : a ≤ d ∧ d - a < bs.length ∧ d < 4096 ∧ take (k + (d - a)) = true then bs[d - a]'h.2.1
        else Memory.read m d := by
  induction bs generalizing a k m with
  | nil => exact ⟨hm, fun d => by simp [storePrefix]⟩
  | cons b bs ih =>
    unfold storePrefix memWrite
    by_cases ha : a < 4096
    · simp only [if_pos ha]
      have hm' : Memory.wf (if take k = true then Memory.write m a b else m) = true := by
        split
        · exact Memory.wf_write a b hm ha
        · exact hm
      obtain ⟨h1, h2⟩ := ih (a + 1) (k + 1) hm'
      refine ⟨h1, fun d => ?_⟩
      rw [h2 d]
      by_cases hd : d = a
      · subst hd
        rw [dif_neg (by omega)]
        by_cases ht : take k = true
        · rw [if_pos ht, Memory.read_write d b hm, if_pos rfl, dif_pos (by simpa [ha] using ht)]
          simp
        · rw [if_neg ht, dif_neg (by simpa using fun _ => ht)]
      · have hr : Memory.read (if take k = true then Memory.write m a b else m) d = Memory.read m d := by
          split
          · rw [Memory.read_write a b hm, if_neg hd]
          · rfl
        rw [hr]
        by_cases hc : a + 1 ≤ d ∧ d - (a + 1) < bs.length ∧ d < 4096 ∧ take (k + 1 + (d - (a + 1))) = true
        · have e1 : d - a = d - (a + 1) + 1 := by omega
          have e2 : k + (d - a) = k + 1 + (d - (a + 1)) := by omega
          rw [dif_pos hc, dif_pos (by rw [e2]; exact ⟨by omega, by rw [List.length_cons]; omega, hc.2.2.1, hc.2.2.2⟩)]
          simp only [e1, List.getElem_cons_succ]
        · rw [dif_neg hc, dif_neg]
          rintro ⟨h3, h4, h5, h6⟩
          have e2 : k + (d - a) = k + 1 + (d - (a + 1)) := by omega
          rw [e2] at h6
          rw [List.length_cons] at h4
          exact hc ⟨by omega, by omega, h5, h6⟩
    · simp only [if_neg ha]
      refine ⟨hm, fun d => ?_⟩
      rw [dif_neg]
      omega

/-- A completed block store is the store that takes every element. -/
theorem storeBlock_eq_storePrefix {m m' : Memory} {a : Nat} {bs : List Byte} (k : Nat) (h : storeBlock m a bs = some m') :
    m' = storePrefix (fun _ => true) m a k bs := by
  induction bs generalizing a m k with
  | nil => simpa [storeBlock, storePrefix] using h.symm
  | cons b bs ih =>
    unfold storeBlock memWrite at h
    unfold storePrefix memWrite
    by_cases ha : a < 4096
    · simp only [if_pos ha] at h ⊢
      exact ih (k + 1) h
    · simp [if_neg ha] at h

/-- What a completed block store leaves: byte `d - a` at each address `d` of the block, every other byte as before. -/
theorem storeBlock_spec {m m' : Memory} {a : Nat} {bs : List Byte} (hm : Memory.wf m = true)
    (h : storeBlock m a bs = some m') :
    Memory.wf m' = true ∧
      ∀ d, Memory.read m' d = if h : a ≤ d ∧ d - a < bs.length then bs[d - a]'h.2 else Memory.read m d := by
  have hn := (storeBlock_eq_none_iff m a bs).not.mp (by simp [h])
  rw [storeBlock_eq_storePrefix 0 h]
  obtain ⟨h1, h2⟩ := storePrefix_spec (fun _ => true) a 0 bs hm
  refine ⟨h1, fun d => ?_⟩
  rw [h2 d]
  by_cases hc : a ≤ d ∧ d - a < bs.length
  · rw [dif_pos hc, dif_pos ⟨hc.1, hc.2, by omega, rfl⟩]
  · rw [dif_neg hc, dif_neg (fun hh => hc ⟨hh.1, hh.2.1⟩)]

end Sys2Proof.Machine
end

