-- ==== Sys2Proof/Laws/PerInstr.lean ====
section
/-! SUPPORT. Per instruction: its encoding agrees with the match and mask its own row of the opcode map gives (30_encoding.md R75). -/

namespace Sys2Proof.Laws.PatternLaw

/-- "a word `op` selects the row when `op & mask = match`" (R75), for the instruction's own word and row. -/
def Statement (i : Instr) : Prop := encode i &&& (rowOf i).2 = (rowOf i).1

/-- A word of four nibbles under a mask of four nibbles. -/
theorem of_nibbles {a b c d e f g h : Nibble} {w m p : Word} (hw : w = wordOf a b c d) (hm : m = wordOf e f g h)
    (hp : p = wordOf (a &&& e) (b &&& f) (c &&& g) (d &&& h)) : w &&& m = p := by
  rw [hw, hm, hp, wordOf_and]

@[simp] theorem and_ones (a : Nibble) : a &&& 0xF#4 = a := BitVec.and_allOnes

@[simp] theorem and_zeros (a : Nibble) : a &&& 0x0#4 = 0x0#4 := BitVec.and_zero

theorem cls : Statement (.cls) := by show _ = _; decide

theorem ret : Statement (.ret) := by show _ = _; decide

theorem jp (nnn : Addr12) : Statement (.jp nnn) :=
  of_nibbles (e := 0xF#4) (f := 0x0#4) (g := 0x0#4) (h := 0x0#4) (m := 0xF000#16) (p := 0x1000#16) rfl (by decide)
    (by simp only [and_ones, and_zeros]; decide)

theorem call (nnn : Addr12) : Statement (.call nnn) :=
  of_nibbles (e := 0xF#4) (f := 0x0#4) (g := 0x0#4) (h := 0x0#4) (m := 0xF000#16) (p := 0x2000#16) rfl (by decide)
    (by simp only [and_ones, and_zeros]; decide)

theorem seVxKk (x : Nibble) (kk : Byte) : Statement (.seVxKk x kk) :=
  of_nibbles (e := 0xF#4) (f := 0x0#4) (g := 0x0#4) (h := 0x0#4) (m := 0xF000#16) (p := 0x3000#16) rfl (by decide)
    (by simp only [and_ones, and_zeros]; decide)

theorem sneVxKk (x : Nibble) (kk : Byte) : Statement (.sneVxKk x kk) :=
  of_nibbles (e := 0xF#4) (f := 0x0#4) (g := 0x0#4) (h := 0x0#4) (m := 0xF000#16) (p := 0x4000#16) rfl (by decide)
    (by simp only [and_ones, and_zeros]; decide)

theorem seVxVy (x y : Nibble) : Statement (.seVxVy x y) :=
  of_nibbles (e := 0xF#4) (f := 0x0#4) (g := 0x0#4) (h := 0xF#4) (m := 0xF00F#16) (p := 0x5000#16) rfl (by decide)
    (by simp only [and_ones, and_zeros]; decide)

theorem ldVxKk (x : Nibble) (kk : Byte) : Statement (.ldVxKk x kk) :=
  of_nibbles (e := 0xF#4) (f := 0x0#4) (g := 0x0#4) (h := 0x0#4) (m := 0xF000#16) (p := 0x6000#16) rfl (by decide)
    (by simp only [and_ones, and_zeros]; decide)

theorem addVxKk (x : Nibble) (kk : Byte) : Statement (.addVxKk x kk) :=
  of_nibbles (e := 0xF#4) (f := 0x0#4) (g := 0x0#4) (h := 0x0#4) (m := 0xF000#16) (p := 0x7000#16) rfl (by decide)
    (by simp only [and_ones, and_zeros]; decide)

theorem ldVxVy (x y : Nibble) : Statement (.ldVxVy x y) :=
  of_nibbles (e := 0xF#4) (f := 0x0#4) (g := 0x0#4) (h := 0xF#4) (m := 0xF00F#16) (p := 0x8000#16) rfl (by decide)
    (by simp only [and_ones, and_zeros]; decide)

theorem orVxVy (x y : Nibble) : Statement (.orVxVy x y) :=
  of_nibbles (e := 0xF#4) (f := 0x0#4) (g := 0x0#4) (h := 0xF#4) (m := 0xF00F#16) (p := 0x8001#16) rfl (by decide)
    (by simp only [and_ones, and_zeros]; decide)

theorem andVxVy (x y : Nibble) : Statement (.andVxVy x y) :=
  of_nibbles (e := 0xF#4) (f := 0x0#4) (g := 0x0#4) (h := 0xF#4) (m := 0xF00F#16) (p := 0x8002#16) rfl (by decide)
    (by simp only [and_ones, and_zeros]; decide)

theorem xorVxVy (x y : Nibble) : Statement (.xorVxVy x y) :=
  of_nibbles (e := 0xF#4) (f := 0x0#4) (g := 0x0#4) (h := 0xF#4) (m := 0xF00F#16) (p := 0x8003#16) rfl (by decide)
    (by simp only [and_ones, and_zeros]; decide)

theorem addVxVy (x y : Nibble) : Statement (.addVxVy x y) :=
  of_nibbles (e := 0xF#4) (f := 0x0#4) (g := 0x0#4) (h := 0xF#4) (m := 0xF00F#16) (p := 0x8004#16) rfl (by decide)
    (by simp only [and_ones, and_zeros]; decide)

theorem subVxVy (x y : Nibble) : Statement (.subVxVy x y) :=
  of_nibbles (e := 0xF#4) (f := 0x0#4) (g := 0x0#4) (h := 0xF#4) (m := 0xF00F#16) (p := 0x8005#16) rfl (by decide)
    (by simp only [and_ones, and_zeros]; decide)

theorem shrVx (x y : Nibble) : Statement (.shrVx x y) :=
  of_nibbles (e := 0xF#4) (f := 0x0#4) (g := 0x0#4) (h := 0xF#4) (m := 0xF00F#16) (p := 0x8006#16) rfl (by decide)
    (by simp only [and_ones, and_zeros]; decide)

theorem subnVxVy (x y : Nibble) : Statement (.subnVxVy x y) :=
  of_nibbles (e := 0xF#4) (f := 0x0#4) (g := 0x0#4) (h := 0xF#4) (m := 0xF00F#16) (p := 0x8007#16) rfl (by decide)
    (by simp only [and_ones, and_zeros]; decide)

theorem shlVx (x y : Nibble) : Statement (.shlVx x y) :=
  of_nibbles (e := 0xF#4) (f := 0x0#4) (g := 0x0#4) (h := 0xF#4) (m := 0xF00F#16) (p := 0x800E#16) rfl (by decide)
    (by simp only [and_ones, and_zeros]; decide)

theorem sneVxVy (x y : Nibble) : Statement (.sneVxVy x y) :=
  of_nibbles (e := 0xF#4) (f := 0x0#4) (g := 0x0#4) (h := 0xF#4) (m := 0xF00F#16) (p := 0x9000#16) rfl (by decide)
    (by simp only [and_ones, and_zeros]; decide)

theorem ldI (nnn : Addr12) : Statement (.ldI nnn) :=
  of_nibbles (e := 0xF#4) (f := 0x0#4) (g := 0x0#4) (h := 0x0#4) (m := 0xF000#16) (p := 0xA000#16) rfl (by decide)
    (by simp only [and_ones, and_zeros]; decide)

theorem jpV0 (nnn : Addr12) : Statement (.jpV0 nnn) :=
  of_nibbles (e := 0xF#4) (f := 0x0#4) (g := 0x0#4) (h := 0x0#4) (m := 0xF000#16) (p := 0xB000#16) rfl (by decide)
    (by simp only [and_ones, and_zeros]; decide)

theorem rnd (x : Nibble) (kk : Byte) : Statement (.rnd x kk) :=
  of_nibbles (e := 0xF#4) (f := 0x0#4) (g := 0x0#4) (h := 0x0#4) (m := 0xF000#16) (p := 0xC000#16) rfl (by decide)
    (by simp only [and_ones, and_zeros]; decide)

theorem drw (x y n : Nibble) : Statement (.drw x y n) :=
  of_nibbles (e := 0xF#4) (f := 0x0#4) (g := 0x0#4) (h := 0x0#4) (m := 0xF000#16) (p := 0xD000#16) rfl (by decide)
    (by simp only [and_ones, and_zeros]; decide)

theorem skp (x : Nibble) : Statement (.skp x) :=
  of_nibbles (e := 0xF#4) (f := 0x0#4) (g := 0xF#4) (h := 0xF#4) (m := 0xF0FF#16) (p := 0xE09E#16) rfl (by decide)
    (by simp only [and_ones, and_zeros]; decide)

theorem sknp (x : Nibble) : Statement (.sknp x) :=
  of_nibbles (e := 0xF#4) (f := 0x0#4) (g := 0xF#4) (h := 0xF#4) (m := 0xF0FF#16) (p := 0xE0A1#16) rfl (by decide)
    (by simp only [and_ones, and_zeros]; decide)

theorem ldVxDT (x : Nibble) : Statement (.ldVxDT x) :=
  of_nibbles (e := 0xF#4) (f := 0x0#4) (g := 0xF#4) (h := 0xF#4) (m := 0xF0FF#16) (p := 0xF007#16) rfl (by decide)
    (by simp only [and_ones, and_zeros]; decide)

theorem ldVxK (x : Nibble) : Statement (.ldVxK x) :=
  of_nibbles (e := 0xF#4) (f := 0x0#4) (g := 0xF#4) (h := 0xF#4) (m := 0xF0FF#16) (p := 0xF00A#16) rfl (by decide)
    (by simp only [and_ones, and_zeros]; decide)

theorem ldDTVx (x : Nibble) : Statement (.ldDTVx x) :=
  of_nibbles (e := 0xF#4) (f := 0x0#4) (g := 0xF#4) (h := 0xF#4) (m := 0xF0FF#16) (p := 0xF015#16) rfl (by decide)
    (by simp only [and_ones, and_zeros]; decide)

theorem ldSTVx (x : Nibble) : Statement (.ldSTVx x) :=
  of_nibbles (e := 0xF#4) (f := 0x0#4) (g := 0xF#4) (h := 0xF#4) (m := 0xF0FF#16) (p := 0xF018#16) rfl (by decide)
    (by simp only [and_ones, and_zeros]; decide)

theorem addIVx (x : Nibble) : Statement (.addIVx x) :=
  of_nibbles (e := 0xF#4) (f := 0x0#4) (g := 0xF#4) (h := 0xF#4) (m := 0xF0FF#16) (p := 0xF01E#16) rfl (by decide)
    (by simp only [and_ones, and_zeros]; decide)

theorem ldFVx (x : Nibble) : Statement (.ldFVx x) :=
  of_nibbles (e := 0xF#4) (f := 0x0#4) (g := 0xF#4) (h := 0xF#4) (m := 0xF0FF#16) (p := 0xF029#16) rfl (by decide)
    (by simp only [and_ones, and_zeros]; decide)

theorem ldBVx (x : Nibble) : Statement (.ldBVx x) :=
  of_nibbles (e := 0xF#4) (f := 0x0#4) (g := 0xF#4) (h := 0xF#4) (m := 0xF0FF#16) (p := 0xF033#16) rfl (by decide)
    (by simp only [and_ones, and_zeros]; decide)

theorem storeVx (x : Nibble) : Statement (.storeVx x) :=
  of_nibbles (e := 0xF#4) (f := 0x0#4) (g := 0xF#4) (h := 0xF#4) (m := 0xF0FF#16) (p := 0xF055#16) rfl (by decide)
    (by simp only [and_ones, and_zeros]; decide)

theorem loadVx (x : Nibble) : Statement (.loadVx x) :=
  of_nibbles (e := 0xF#4) (f := 0x0#4) (g := 0xF#4) (h := 0xF#4) (m := 0xF0FF#16) (p := 0xF065#16) rfl (by decide)
    (by simp only [and_ones, and_zeros]; decide)

end Sys2Proof.Laws.PatternLaw
end

