-- ==== Sys2Proof/Tests/Slice0.lean ====
section
/-! SUPPORT. The model's own tests. Expected results are those of 95_test_vectors.md, named by its ids (C1, A1, M1, D1, K1, X1, H1, P6), or of the rule a comment names; then, for every statement with hypotheses, a state and operands that meet them. -/

namespace Sys2Proof.Tests

open Sys2Proof.Machine
open Sys2Proof.Claims

/-- Something about the next state, if the outcome is one. -/
def seen {α : Type} (f : State → α) (o : Host.Outcome State Fault Refusal) : Option α :=
  match o with
  | .next t => some (f t)
  | .fault _ => none
  | .refused _ => none

/-- The vectors' convention: the word lies at `pc`, and one step runs. -/
def run {α : Type} (w : Nat) (s : State) (f : State → α) : Option α := seen f (step (s.withFetchWord 16 w))

/-- Reset with registers set. -/
def regs (l : List (Nibble × Byte)) : State := l.foldl (fun s p => s.setReg p.1 p.2) State.reset

/-- The state with bytes written at an address. -/
def poke (a : Nat) (bytes : List Byte) (s : State) : State :=
  { s with mem := storePrefix (fun _ => true) s.mem a 0 bytes }

/-- The state with pixels lit. -/
def light (l : List (Fin 64 × Fin 32)) (s : State) : State :=
  { s with FB := l.foldl (fun fb p => togglePixel fb p.1 p.2) s.FB }

/-- The state of vector D3, with the bytes of the default glyph 7 stored at 0x300, since the machine's own GLYPHS are open:
they are to be drawn at (10, 5) on a clear screen. -/
def glyphState : State :=
  poke 0x300 [0xF0, 0x10, 0x20, 0x40, 0x40] { regs [(0x1#4, 0x0A#8), (0x2#4, 0x05#8)] with I := 0x300#16 }

/-- The pixels D3 lights. -/
def glyphPixels : List (Fin 64 × Fin 32) :=
  [(10, 5), (11, 5), (12, 5), (13, 5), (13, 6), (12, 7), (11, 8), (11, 9)]

/-- Two registers of a state. -/
def pair (x y : Nibble) (t : State) : Byte × Byte := (t.reg x, t.reg y)

/-- A register and the error. -/
def regErr (x : Nibble) (t : State) : Byte × Option ErrorKind := (t.reg x, t.err)

/-- The pc and the error. -/
def pcErr (t : State) : Word × Option ErrorKind := (t.pc, t.err)

/-! ### Well-formedness: each check refuses an ill-formed term -/

theorem test_image_too_long : imageWellFormed (List.replicate 3585 0#8) = false := by
  unfold imageWellFormed; rw [List.length_replicate]; decide
theorem test_image_longest : imageWellFormed (List.replicate 3584 0#8) = true := by
  unfold imageWellFormed; rw [List.length_replicate]; decide
theorem test_glyphs_short : glyphsWellFormed (List.replicate 79 0#8) = false := by decide
theorem test_glyphs_table : glyphsWellFormed defaultGlyphs.toList = true := by decide
theorem test_shr_not_canonical : (Instr.shrVx 0x1#4 0x2#4).canonical = false := by decide
theorem test_shl_not_canonical : (Instr.shlVx 0x1#4 0x2#4).canonical = false := by decide
theorem test_drw_wellFormed : (Instr.drw 0xF#4 0xF#4 0x0#4).wellFormed = true := by decide
theorem test_memory_unsorted : Memory.wf [(5, 1#8), (4, 1#8)] = false := by decide
theorem test_memory_default_listed : Memory.wf [(0x0A0, 0x00#8)] = false := by decide
theorem test_memory_past_end : Memory.wf [(4096, 1#8)] = false := by decide

/-! ### Decoding: one word per constructor, written out from R75's patterns -/

theorem test_decode_cls : decodeWord 0x00E0#16 = some .cls := by decide
theorem test_decode_ret : decodeWord 0x00EE#16 = some .ret := by decide
theorem test_decode_jp : decodeWord 0b0001001111000101#16 = some (.jp 0x3C5#12) := by decide
theorem test_decode_call : decodeWord 0b0010101010111100#16 = some (.call 0xABC#12) := by decide
theorem test_decode_seVxKk : decodeWord 0b0011001100101010#16 = some (.seVxKk 0x3#4 0x2A#8) := by decide
theorem test_decode_sneVxKk : decodeWord 0b0100001100101010#16 = some (.sneVxKk 0x3#4 0x2A#8) := by decide
theorem test_decode_seVxVy : decodeWord 0b0101000100100000#16 = some (.seVxVy 0x1#4 0x2#4) := by decide
theorem test_decode_ldVxKk : decodeWord 0b0110001100101010#16 = some (.ldVxKk 0x3#4 0x2A#8) := by decide
theorem test_decode_addVxKk : decodeWord 0b0111000111111110#16 = some (.addVxKk 0x1#4 0xFE#8) := by decide
theorem test_decode_ldVxVy : decodeWord 0b1000000100100000#16 = some (.ldVxVy 0x1#4 0x2#4) := by decide
theorem test_decode_orVxVy : decodeWord 0b1000000100100001#16 = some (.orVxVy 0x1#4 0x2#4) := by decide
theorem test_decode_andVxVy : decodeWord 0b1000000100100010#16 = some (.andVxVy 0x1#4 0x2#4) := by decide
theorem test_decode_xorVxVy : decodeWord 0b1000000100100011#16 = some (.xorVxVy 0x1#4 0x2#4) := by decide
theorem test_decode_addVxVy : decodeWord 0b1000101010110100#16 = some (.addVxVy 0xA#4 0xB#4) := by decide
theorem test_decode_subVxVy : decodeWord 0b1000000111110101#16 = some (.subVxVy 0x1#4 0xF#4) := by decide
theorem test_decode_shrVx : decodeWord 0b1000000100100110#16 = some (.shrVx 0x1#4 0x2#4) := by decide
theorem test_decode_subnVxVy : decodeWord 0b1000111100010111#16 = some (.subnVxVy 0xF#4 0x1#4) := by decide
theorem test_decode_shlVx : decodeWord 0b1000000100001110#16 = some (.shlVx 0x1#4 0x0#4) := by decide
theorem test_decode_sneVxVy : decodeWord 0b1001000100100000#16 = some (.sneVxVy 0x1#4 0x2#4) := by decide
theorem test_decode_ldI : decodeWord 0b1010001100000001#16 = some (.ldI 0x301#12) := by decide
theorem test_decode_jpV0 : decodeWord 0b1011111111111110#16 = some (.jpV0 0xFFE#12) := by decide
theorem test_decode_rnd : decodeWord 0b1100000100001111#16 = some (.rnd 0x1#4 0x0F#8) := by decide
theorem test_decode_drw : decodeWord 0b1101000100100101#16 = some (.drw 0x1#4 0x2#4 0x5#4) := by decide
theorem test_decode_skp : decodeWord 0b1110110010011110#16 = some (.skp 0xC#4) := by decide
theorem test_decode_sknp : decodeWord 0b1110110010100001#16 = some (.sknp 0xC#4) := by decide
theorem test_decode_ldVxDT : decodeWord 0b1111010000000111#16 = some (.ldVxDT 0x4#4) := by decide
theorem test_decode_ldVxK : decodeWord 0b1111010000001010#16 = some (.ldVxK 0x4#4) := by decide
theorem test_decode_ldDTVx : decodeWord 0b1111001100010101#16 = some (.ldDTVx 0x3#4) := by decide
theorem test_decode_ldSTVx : decodeWord 0b1111001100011000#16 = some (.ldSTVx 0x3#4) := by decide
theorem test_decode_addIVx : decodeWord 0b1111001000011110#16 = some (.addIVx 0x2#4) := by decide
theorem test_decode_ldFVx : decodeWord 0b1111001000101001#16 = some (.ldFVx 0x2#4) := by decide
theorem test_decode_ldBVx : decodeWord 0b1111001000110011#16 = some (.ldBVx 0x2#4) := by decide
theorem test_decode_storeVx : decodeWord 0b1111111101010101#16 = some (.storeVx 0xF#4) := by decide
theorem test_decode_loadVx : decodeWord 0b1111001001100101#16 = some (.loadVx 0x2#4) := by decide

/-- C22, K18, X1 to X7 and X9: words no row matches. -/
theorem test_unknown_words :
    [0x5121#16, 0xE09F#16, 0x0000#16, 0x00E1#16, 0x0123#16, 0x8128#16, 0x812F#16, 0x9121#16, 0xF000#16, 0xF166#16].all
      (fun w => decodeWord w == none) = true := by decide

/-- R54: the high byte is stored first. -/
theorem test_decode_bytes : decode [0x13#8, 0xC5#8, 0x00#8] = .ok (.jp 0x3C5#12, [0x00#8]) := by rfl
theorem test_decode_truncated : decode [0x13#8] = .error .truncated := by rfl
theorem test_decode_rejects : decode [0x00#8, 0xE1#8] = .error (.unknownOpcode 0x00E1#16) := by rfl
theorem test_decodeTableWord : decodeTableWord 16 0x8AB4 = some (.addVxVy 0xA#4 0xB#4) := by decide
theorem test_encode_bytes : encodeBytes (.drw 0x1#4 0x2#4 0x5#4) = [0xD1#8, 0x25#8] := by decide

/-! ### Control flow -/

/-- C1 -/
theorem test_jp : run 0x13C5 State.reset pcErr = some (0x3C5#16, none) := by decide
/-- C3 -/
theorem test_jp_last : run 0x1FFF State.reset pcErr = some (0xFFF#16, none) := by decide
/-- C5 -/
theorem test_call_last_entry : run 0x2300 { State.reset with sp := 15 } (fun t => (t.stack[15], t.sp, t.pc)) = some (0x202#16, 16, 0x300#16) := by decide
/-- C6 -/
theorem test_call_overflow : run 0x2300 { State.reset with sp := 16 } (fun t => (t.err, t.sp, t.pc)) = some (some .stackOverflow, 16, 0x200#16) := by decide
/-- C8 -/
theorem test_ret : run 0x00EE { State.reset with pc := 0x300#16, sp := 1, stack := State.reset.stack.set 0 0x202#16 } (fun t => (t.pc, t.sp, t.stack[0])) = some (0x202#16, 0, 0x202#16) := by decide
/-- C9 -/
theorem test_ret_underflow : run 0x00EE State.reset pcErr = some (0x200#16, some .stackUnderflow) := by decide
/-- C10 -/
theorem test_jpV0 : run 0xB300 (regs [(0x0#4, 0x04#8)]) pcErr = some (0x304#16, none) := by decide
/-- C11 -/
theorem test_jpV0_past_end : run 0xBFFF (regs [(0x0#4, 0xFF#8)]) pcErr = some (0x10FE#16, none) := by decide
/-- C12 -/
theorem test_seVxKk_equal : run 0x332A (regs [(0x3#4, 0x2A#8)]) pcErr = some (0x204#16, none) := by decide
/-- C13 -/
theorem test_seVxKk_differ : run 0x332A (regs [(0x3#4, 0x2B#8)]) pcErr = some (0x202#16, none) := by decide
/-- C14 -/
theorem test_sneVxKk_equal : run 0x432A (regs [(0x3#4, 0x2A#8)]) pcErr = some (0x202#16, none) := by decide
/-- C15 -/
theorem test_sneVxKk_differ : run 0x432A (regs [(0x3#4, 0x2B#8)]) pcErr = some (0x204#16, none) := by decide
/-- C16 -/
theorem test_seVxVy_equal : run 0x5120 (regs [(0x1#4, 0x07#8), (0x2#4, 0x07#8)]) pcErr = some (0x204#16, none) := by decide
/-- C17 -/
theorem test_seVxVy_differ : run 0x5120 (regs [(0x1#4, 0x07#8), (0x2#4, 0x08#8)]) pcErr = some (0x202#16, none) := by decide
/-- C19 -/
theorem test_sneVxVy_differ : run 0x9120 (regs [(0x1#4, 0x07#8), (0x2#4, 0x08#8)]) pcErr = some (0x204#16, none) := by decide
/-- C20 -/
theorem test_sneVxVy_equal : run 0x9120 (regs [(0x1#4, 0x07#8), (0x2#4, 0x07#8)]) pcErr = some (0x202#16, none) := by decide

/-! ### Loads, arithmetic, logic, shifts, random -/

/-- A2 -/
theorem test_ldVxKk : run 0x6F55 State.reset (pair 0xF#4 0xE#4) = some (0x55#8, 0x00#8) := by decide
/-- A3 -/
theorem test_ldVxVy : run 0x8120 (regs [(0x2#4, 0x7F#8)]) (pair 0x1#4 0x2#4) = some (0x7F#8, 0x7F#8) := by decide
/-- A4 -/
theorem test_addVxKk_wraps : run 0x7120 (regs [(0x1#4, 0xF0#8), (0xF#4, 0x01#8)]) (pair 0x1#4 0xF#4) = some (0x10#8, 0x01#8) := by decide
/-- A6 -/
theorem test_orVxVy : run 0x8121 (regs [(0x1#4, 0xF0#8), (0x2#4, 0x0F#8), (0xF#4, 0x01#8)]) (pair 0x1#4 0xF#4) = some (0xFF#8, 0x01#8) := by decide
/-- A7 -/
theorem test_andVxVy : run 0x8122 (regs [(0x1#4, 0xF0#8), (0x2#4, 0x3C#8), (0xF#4, 0x01#8)]) (pair 0x1#4 0xF#4) = some (0x30#8, 0x01#8) := by decide
/-- A8 -/
theorem test_xorVxVy : run 0x8123 (regs [(0x1#4, 0xF0#8), (0x2#4, 0x3C#8), (0xF#4, 0x01#8)]) (pair 0x1#4 0xF#4) = some (0xCC#8, 0x01#8) := by decide
/-- A11 -/
theorem test_addVxVy_no_carry : run 0x8124 (regs [(0x1#4, 0xFE#8), (0x2#4, 0x01#8), (0xF#4, 0x01#8)]) (pair 0x1#4 0xF#4) = some (0xFF#8, 0x00#8) := by decide
/-- A14 -/
theorem test_addVxVy_into_VF : run 0x8F14 (regs [(0xF#4, 0xF0#8), (0x1#4, 0x20#8)]) (pair 0xF#4 0x1#4) = some (0x10#8, 0x20#8) := by decide
/-- A18 -/
theorem test_subVxVy_equal : run 0x8125 (regs [(0x1#4, 0x07#8), (0x2#4, 0x07#8), (0xF#4, 0x01#8)]) (pair 0x1#4 0xF#4) = some (0x00#8, 0x00#8) := by decide
/-- A20 -/
theorem test_subVxVy_from_VF : run 0x81F5 (regs [(0x1#4, 0x05#8), (0xF#4, 0x03#8)]) (pair 0x1#4 0xF#4) = some (0x04#8, 0x01#8) := by decide
/-- A23 -/
theorem test_subnVxVy_borrow : run 0x8127 (regs [(0x1#4, 0x05#8), (0x2#4, 0x03#8), (0xF#4, 0x01#8)]) (pair 0x1#4 0xF#4) = some (0xFE#8, 0x00#8) := by decide
/-- A25 -/
theorem test_subnVxVy_into_VF : run 0x8F17 (regs [(0xF#4, 0x03#8), (0x1#4, 0x05#8)]) (pair 0xF#4 0x1#4) = some (0x04#8, 0x05#8) := by decide
/-- A29 -/
theorem test_shrVx_ignores_y : run 0x8126 (regs [(0x1#4, 0x05#8), (0x2#4, 0xFF#8)]) (pair 0x1#4 0xF#4) = some (0x02#8, 0x01#8) := by decide
/-- A30 -/
theorem test_shrVx_VF : run 0x8F06 (regs [(0xF#4, 0xFF#8)]) (pair 0xF#4 0x1#4) = some (0x00#8, 0x00#8) := by decide
/-- A31 -/
theorem test_shlVx : run 0x810E (regs [(0x1#4, 0x81#8)]) (pair 0x1#4 0xF#4) = some (0x02#8, 0x01#8) := by decide
/-- A33 -/
theorem test_shlVx_VF : run 0x8F0E (regs [(0xF#4, 0x80#8)]) (pair 0xF#4 0x1#4) = some (0x02#8, 0x00#8) := by decide
/-- A37: masking with 0 gives 0 whatever the draw. -/
theorem test_rnd_zero : seen (State.reg · 0x1#4) (exec (.rnd 0x1#4 0x00#8) (regs [(0x1#4, 0x09#8)])) = some 0x00#8 := by
  simp [seen, exec, execRnd]; decide

/-! ### Index register and memory -/

/-- M2 -/
theorem test_addIVx : run 0xF21E { (regs [(0x2#4, 0x10#8)]) with I := 0x300#16 } (fun t => (t.I, t.pc)) = some (0x310#16, 0x202#16) := by decide
/-- M4 -/
theorem test_addIVx_wraps : run 0xF21E { (regs [(0x2#4, 0x01#8)]) with I := 0xFFFF#16 } (fun t => (t.I, t.err)) = some (0x0000#16, none) := by decide
/-- M1 -/
theorem test_ldI : run 0xA300 State.reset (fun t => (t.I, t.pc)) = some (0x300#16, 0x202#16) := by decide
/-- M6 -/
theorem test_ldFVx : run 0xF029 (regs [(0x0#4, 0x0F#8)]) (fun t => (t.I, t.pc)) = some (0x09B#16, 0x202#16) := by decide
/-- M8 -/
theorem test_ldFVx_unmasked : run 0xF029 (regs [(0x0#4, 0xFF#8)]) (fun t => (t.I, t.pc)) = some (0x54B#16, 0x202#16) := by decide
/-- M9 -/
theorem test_ldBVx : run 0xF033 { (regs [(0x0#4, 0xFE#8)]) with I := 0x300#16 } (fun t => t.mem.filter (fun c => c.1 != 0x200 && c.1 != 0x201)) = some [(0x300, 2#8), (0x301, 5#8), (0x302, 4#8)] := by decide
/-- M13 -/
theorem test_ldBVx_past_end : run 0xF033 { (regs [(0x0#4, 0x09#8)]) with I := 0x1000#16 } pcErr = some (0x200#16, some .outOfBounds) := by decide
/-- M14 -/
theorem test_storeVx : run 0xF255 { (regs [(0x0#4, 0x11#8), (0x1#4, 0x22#8), (0x2#4, 0x33#8), (0x3#4, 0x44#8)]) with I := 0x400#16 } (fun t => (loadBlock t.mem 0x400 4, t.I)) = some (some [0x11#8, 0x22#8, 0x33#8, 0x00#8], 0x400#16) := by decide
/-- M20 under `ascending` -/
theorem test_storeVx_past_end : let t := storeThrough .ascending [0xAA#8, 0xBB#8] { State.reset with I := 0xFFF#16 }
    (memRead t.mem 0xFFF, t.err, t.pc) = (some 0xAA#8, some .outOfBounds, 0x200#16) := by decide
/-- M17 -/
theorem test_loadVx : run 0xF265 (poke 0x400 [0x11, 0x22, 0x33, 0x44] { State.reset with I := 0x400#16 }) (fun t => (t.V.toList.take 4, t.I)) = some ([0x11#8, 0x22#8, 0x33#8, 0x00#8], 0x400#16) := by decide
/-- M18: glyph 7 under the default GLYPHS. -/
theorem test_default_glyph_seven : (List.range 5).map (fun k => resetByteOf defaultGlyphs (0x073 + k)) = [0xF0#8, 0x10#8, 0x20#8, 0x40#8, 0x40#8] := by decide

/-! ### Display -/

/-- D1 -/
theorem test_cls : run 0x00E0 (light [(0, 0), (63, 31)] State.reset) (fun t => (t.FB == State.reset.FB, t.redraw, t.pc)) = some (true, true, 0x202#16) := by decide
/-- D3 -/
theorem test_drw_glyph : run 0xD125 glyphState (fun t => (t.FB == (light glyphPixels State.reset).FB, t.reg 0xF#4, t.redraw)) = some (true, 0x00#8, true) := by decide
/-- D4 -/
theorem test_drw_collides : run 0xD125 (light glyphPixels glyphState) (fun t => (t.FB == State.reset.FB, t.reg 0xF#4)) = some (true, 0x01#8) := by decide
/-- D5 under `wrap` -/
theorem test_drw_wraps : (drawSprite .wrap 0x3E#8 0x00#8 [0xFF#8] State.reset.FB).1 = (light [(62, 0), (63, 0), (0, 0), (1, 0), (2, 0), (3, 0), (4, 0), (5, 0)] State.reset).FB := by decide
/-- D6 under `clip` -/
theorem test_drw_clips : (drawSprite .clip 0x00#8 0x1F#8 [0x80#8, 0x80#8] State.reset.FB).1 = (light [(0, 31)] State.reset).FB := by decide

/-! ### Keypad and timers -/

/-- K1 -/
theorem test_skp_down : run 0xE09E { (regs [(0x0#4, 0x0A#8)]) with pc := 0x202#16, keys := 0x0400#16 } pcErr = some (0x206#16, none) := by decide
/-- K5 -/
theorem test_skp_no_such_key : run 0xE09E { (regs [(0x0#4, 0x10#8)]) with keys := 0xFFFF#16 } pcErr = some (0x200#16, some .outOfBounds) := by decide
/-- K4 -/
theorem test_sknp_down : run 0xE0A1 { (regs [(0x0#4, 0x0A#8)]) with pc := 0x202#16, keys := 0x0400#16 } pcErr = some (0x204#16, none) := by decide
/-- K6 -/
theorem test_sknp_no_such_key : run 0xE0A1 (regs [(0x0#4, 0xFF#8)]) pcErr = some (0x200#16, some .outOfBounds) := by decide
/-- K7 -/
theorem test_ldVxK_waits : run 0xF00A { State.reset with DT := 0x03#8, ST := 0x01#8 } (fun t => (t.pc, t.DT, t.ST)) = some (0x200#16, 0x02#8, 0x00#8) := by decide
/-- K8 -/
theorem test_ldVxK_one_key : run 0xF00A { (regs [(0x0#4, 0x03#8)]) with keys := 0x0400#16 } (fun t => (t.reg 0x0#4, t.pc)) = some (0x0A#8, 0x202#16) := by decide
/-- K10 -/
theorem test_pickKey : (pickKey .lowest 0 0x0402#16, pickKey .highest 0 0x0402#16) = (some 1, some 10) := by decide
/-- K11 -/
theorem test_ldVxDT : run 0xF407 { State.reset with DT := 0x10#8 } (fun t => (t.reg 0x4#4, t.DT)) = some (0x10#8, 0x0F#8) := by decide
/-- K13 -/
theorem test_ldDTVx : run 0xF315 (regs [(0x3#4, 0x03#8)]) (fun t => (t.DT, t.pc)) = some (0x02#8, 0x202#16) := by decide
/-- K14 -/
theorem test_ldDTVx_zero : run 0xF315 { (regs [(0x3#4, 0x00#8)]) with DT := 0x09#8 } (fun t => (t.DT, t.pc)) = some (0x00#8, 0x202#16) := by decide
/-- K17 -/
theorem test_ldSTVx : run 0xF318 { (regs [(0x3#4, 0xFF#8)]) with DT := 0x01#8 } (fun t => (t.ST, t.DT)) = some (0xFE#8, 0x00#8) := by decide

/-! ### Fetch, errors, host -/

/-- X1 -/
theorem test_step_from_reset : seen pcErr (step State.reset) = some (0x200#16, some .unknownOpcode) := by decide
/-- X10 -/
theorem test_fetch_past_end : seen pcErr (step { State.reset with pc := 0xFFF#16 }) = some (0xFFF#16, some .outOfBounds) := by decide
/-- X12 -/
theorem test_fetch_last : run 0x1234 { State.reset with pc := 0xFFE#16 } pcErr = some (0x234#16, none) := by decide
/-- X13 -/
theorem test_fetch_odd : run 0x6005 { State.reset with pc := 0x201#16 } (fun t => (t.reg 0x0#4, t.pc)) = some (0x05#8, 0x203#16) := by decide
/-- X14 -/
theorem test_halted : seen (fun t => (t.pc, t.DT, t.err)) (step { State.reset with err := some .stackUnderflow, DT := 0x05#8 }) = some (0x200#16, 0x05#8, some .stackUnderflow) := by decide
/-- X15 -/
theorem test_no_tick_in_failed_step : run 0x00EE { State.reset with DT := 0x05#8 } (fun t => (t.DT, t.err)) = some (0x05#8, some .stackUnderflow) := by decide
/-- H1: the loaded program is gone; and the first default glyph. -/
theorem test_host_reset : seen (fun t => (t.pc, loadBlock t.mem 0x200 2)) (applyHost .reset { (poke 0x200 [0x13, 0xC5] State.reset) with pc := 0x345#16 }) = some (0x200#16, some [0x00#8, 0x00#8]) := by decide
theorem test_default_glyph_zero : (List.range 6).map (fun k => resetByteOf defaultGlyphs (0x04F + k)) = [0x00#8, 0xF0#8, 0x90#8, 0x90#8, 0x90#8, 0xF0#8] := by decide
/-- H6 -/
theorem test_loadProgram_keeps_tail : seen (fun t => loadBlock t.mem 0x200 4) (applyHost (.loadProgram [0x13, 0xC5]) (poke 0x200 [0xAA, 0xBB, 0xCC, 0xDD] State.reset)) = some (some [0x13#8, 0xC5#8, 0xCC#8, 0xDD#8]) := by decide
/-- R39 -/
theorem test_hostView : hostView { State.reset with redraw := true, err := some .outOfBounds, DT := 3#8 } = { fb := State.reset.FB, redraw := true, dt := 3#8, st := 0#8, err := 4#3 } := by decide
/-- P4 at its first step, and parked as in its last -/
theorem test_waiting : Waiting (poke 0x200 [0xF0, 0x0A] State.reset) = true ∧ ParkedAt 0x206#12 (poke 0x206 [0x12, 0x06] { State.reset with pc := 0x206#16 }) = true := by decide

/-! ### Witnesses: for every statement with hypotheses, a state and operands that meet them, at the edges of their ranges -/


/-! Encoding -/

theorem witness_EncodeOfDecode :
    decodeWord 0x812E#16 = some (.shlVx 0x1#4 0x2#4) ∧ encode (.shlVx 0x1#4 0x2#4) = 0x812E#16 := by decide
theorem witness_OpcodeMap :
    (0x8006#16, 0xF00F#16) ∈ opcodeMap ∧ 0x8126#16 &&& 0xF00F#16 = 0x8006#16 ∧
      decodeWord 0x8126#16 = some (.shrVx 0x1#4 0x2#4) := by decide

/-! Control flow -/

theorem witness_Call_room :
    let s := { State.reset with sp := 15 }
    s.sp.val < 16 := by decide
theorem witness_Call_full :
    let s := { State.reset with sp := 16 }
    s.sp.val = 16 := by decide
theorem witness_Return_one :
    let s := { State.reset with sp := 1 }
    0 < s.sp.val := by decide
theorem witness_Return_full :
    let s := { State.reset with sp := 16 }
    0 < s.sp.val := by decide
theorem witness_Return_empty :
    let s := { State.reset with sp := 0 }
    s.sp.val = 0 := by decide
theorem witness_ReturnAfterCall :
    let s := { State.reset with sp := 15 }
    s.sp.val < 16 := by decide
theorem witness_SixteenCalls :
    (List.replicate 16 0x200#12).length = 16 ∧ State.reset.sp.val = 0 := by decide

/-! Arithmetic: the clauses by register number and by comparison -/

theorem witness_AddSetsCarry :
    (0xE#4 : Nibble) ≠ 0xF#4 ∧ 255 < (0xFF#8 : Byte).toNat + (0x01#8 : Byte).toNat ∧
      ¬ 255 < (0xFE#8 : Byte).toNat + (0x01#8 : Byte).toNat := by decide
theorem witness_Subtract :
    let s := regs [(0x1#4, 0x06#8), (0x2#4, 0x05#8), (0xF#4, 0x05#8)]
    (s.reg 0x2#4).toNat < (s.reg 0x1#4).toNat ∧ ¬ (s.reg 0x2#4).toNat < (s.reg 0xF#4).toNat ∧ (0x1#4 : Nibble) ≠ 0xF#4 := by decide

/-! Memory -/

theorem witness_DecimalDigits :
    let s := { State.reset with I := 0xFFD#16 }
    Memory.wf s.mem = true ∧ s.I.toNat + 2 < 4096 := by decide
theorem witness_RegistersStored :
    let s := { State.reset with I := 0xFF0#16 }
    Memory.wf s.mem = true ∧ s.I.toNat + (0xF#4 : Nibble).toNat < 4096 := by decide
theorem witness_RegistersStored_last_byte :
    let s := { State.reset with I := 0xFFF#16 }
    Memory.wf s.mem = true ∧ s.I.toNat + (0x0#4 : Nibble).toNat < 4096 := by decide
theorem witness_RegistersLoaded :
    let s := { State.reset with I := 0xFF0#16 }
    s.I.toNat + (0xF#4 : Nibble).toNat < 4096 ∧ (0xF#4 : Nibble).toNat ≤ (0xF#4 : Nibble).toNat := by decide
theorem witness_StorePastEnd :
    let s := { State.reset with I := 0xFFF#16 }
    Memory.wf s.mem = true ∧ 4096 ≤ s.I.toNat + (0x1#4 : Nibble).toNat := by decide
theorem witness_DigitsPastEnd :
    let s := { State.reset with I := 0xFFE#16 }
    Memory.wf s.mem = true ∧ 4096 ≤ s.I.toNat + 2 := by decide
theorem witness_LoadPastEnd :
    let s := { State.reset with I := 0x1000#16 }
    4096 ≤ s.I.toNat + (0x0#4 : Nibble).toNat := by decide
theorem witness_GlyphReadsBack :
    let s := regs [(0x0#4, 0x0F#8)]
    (s.reg 0x0#4).toNat < 16 ∧ ∀ a, 0x050 ≤ a → a < 0x0A0 → memRead s.mem a = memRead State.reset.mem a := ⟨by decide, fun _ _ _ => rfl⟩
theorem witness_StoredBytesAreFetchedNext :
    let s := { State.reset with pc := 0xFFC#16, I := 0xFFE#16 }
    Memory.wf s.mem = true ∧ 1 ≤ (0x1#4 : Nibble).toNat ∧ s.I = s.pc + 2#16 ∧ s.I.toNat + (0x1#4 : Nibble).toNat < 4096 := by decide

/-! Display -/

theorem witness_Draw_no_rows :
    SpriteInMemory 0x0#4 { State.reset with I := 0xFFFF#16 } := .inl rfl
theorem witness_Draw_last_byte :
    SpriteInMemory 0xF#4 { State.reset with I := 0xFF1#16 } := .inr (by decide)
theorem witness_Draw_collides :
    let s := light [(10, 5)] glyphState
    SpriteInMemory 0x5#4 s ∧ ∃ t, exec (.drw 0x1#4 0x2#4 0x5#4) s = .next t ∧
      ∃ px py, pixelAt s.FB px py = true ∧ pixelAt t.FB px py = false := ⟨.inr (by decide), _, rfl, 10, 5, by decide⟩
theorem witness_Draw_no_collision :
    SpriteInMemory 0x5#4 glyphState ∧ ∃ t, exec (.drw 0x1#4 0x2#4 0x5#4) glyphState = .next t ∧
      ∀ px py, pixelAt glyphState.FB px py = true → pixelAt t.FB px py = true := by
  refine ⟨.inr (by decide), _, rfl, fun px py h => ?_⟩
  have : pixelAt glyphState.FB px py = false := by
    simp [glyphState, poke, regs, State.setReg, pixelAt, State.reset]
  simp [this] at h
theorem witness_Sprite_covers :
    SpriteCovers Config.drwEdge (glyphState.reg 0x1#4) (glyphState.reg 0x2#4) glyphState.mem glyphState.I.toNat 5 13 6 := by
  refine ⟨1, 3, by decide, by decide, by decide, ?_⟩
  generalize Config.drwEdge = e
  cases e <;> (unfold PlacedAt; decide)
theorem witness_DrawTwice :
    (0x1#4 : Nibble) ≠ 0xF#4 ∧ (0x2#4 : Nibble) ≠ 0xF#4 ∧ SpriteInMemory 0x5#4 glyphState ∧
      (∃ t, exec (.drw 0x1#4 0x2#4 0x5#4) glyphState = .next t ∧ t.reg 0xF#4 = 0#8) ∧
      ∃ px py, SpriteCovers Config.drwEdge (glyphState.reg 0x1#4) (glyphState.reg 0x2#4) glyphState.mem glyphState.I.toNat
        (0x5#4 : Nibble).toNat px py := 
  ⟨by decide, by decide, .inr (by decide), ⟨_, rfl, by decide⟩, 13, 6, witness_Sprite_covers⟩
theorem witness_EdgeSettings :
    (0x38#8 : Byte).toNat % 64 ≤ 56 ∧ (0x11#8 : Byte).toNat % 32 + (List.replicate 15 0xFF#8).length ≤ 32 := by decide
theorem witness_DrawPastEnd :
    let s := { State.reset with I := 0xFFF#16, redraw := true }
    (0x2#4 : Nibble) ≠ 0#4 ∧ 4096 < s.I.toNat + (0x2#4 : Nibble).toNat ∧ s.redraw = true := by decide

/-! Keypad -/

theorem witness_KeySkips :
    let s := { regs [(0x0#4, 0x0F#8), (0x1#4, 0x10#8)] with keys := 0x8000#16 }
    (s.reg 0x0#4).toNat ≤ 15 ∧ 15 < (s.reg 0x1#4).toNat ∧ s.keys.getLsbD (s.reg 0x0#4).toNat = true := by decide
theorem witness_WaitForKey :
    State.reset.keys = 0#16 ∧ { State.reset with keys := 0x8001#16 }.keys ≠ 0#16 := by decide

/-! The step -/

theorem witness_StepRuns :
    let s := poke 0xFFE [0x13, 0xC5] { State.reset with pc := 0xFFE#16 }
    s.err = none ∧ s.pc.toNat + 1 < 4096 ∧
      decode [Memory.read s.mem s.pc.toNat, Memory.read s.mem (s.pc.toNat + 1)] = .ok (.jp 0x3C5#12, []) := ⟨by decide, by decide, rfl⟩
theorem witness_Fetch_error :
    let s := { State.reset with pc := 0xFFF#16 }
    s.err = none ∧ 4096 ≤ s.pc.toNat + 1 := by decide
theorem witness_Decode_error :
    let s := { State.reset with pc := 0xFFE#16 }
    s.err = none ∧ s.pc.toNat + 1 < 4096 ∧
      decodeWord (opcodeOf (Memory.read s.mem s.pc.toNat) (Memory.read s.mem (s.pc.toNat + 1))) = none := by decide
theorem witness_Halted :
    { State.reset with err := some .stackOverflow }.err ≠ none := by decide
theorem witness_TimersTick_other :
    let s := poke 0x200 [0x12, 0x00] State.reset
    s.err = none ∧ (∃ t, step s = .next t ∧ t.err = none) ∧ s.fetchDecode = .ok (.jp 0x200#12) := ⟨by decide, ⟨_, rfl, by decide⟩, rfl⟩
theorem witness_TimersTick_setDelay :
    let s := poke 0x200 [0xF3, 0x15] State.reset
    s.err = none ∧ (∃ t, step s = .next t ∧ t.err = none) ∧ s.fetchDecode = .ok (.ldDTVx 0x3#4) := ⟨by decide, ⟨_, rfl, by decide⟩, rfl⟩
theorem witness_TimersTick_setSound :
    let s := poke 0x200 [0xF3, 0x18] State.reset
    s.err = none ∧ (∃ t, step s = .next t ∧ t.err = none) ∧ s.fetchDecode = .ok (.ldSTVx 0x3#4) := ⟨by decide, ⟨_, rfl, by decide⟩, rfl⟩
theorem witness_FailedStep :
    let s := poke 0x200 [0xF0, 0x55] { State.reset with I := 0x1000#16 }
    s.err = none ∧ ∃ t, step s = .next t ∧ t.err ≠ none := ⟨by decide, _, rfl, by decide⟩
theorem witness_EarlyErrors_unknown :
    State.reset.err = none ∧ ∃ t, step State.reset = .next t ∧ t.err = some .unknownOpcode := ⟨by decide, _, rfl, by decide⟩
theorem witness_EarlyErrors_overflow :
    let s := poke 0x200 [0x23, 0x00] { State.reset with sp := 16 }
    s.err = none ∧ ∃ t, step s = .next t ∧ t.err = some .stackOverflow := ⟨by decide, _, rfl, by decide⟩
theorem witness_EarlyErrors_underflow :
    let s := poke 0x200 [0x00, 0xEE] State.reset
    s.err = none ∧ ∃ t, step s = .next t ∧ t.err = some .stackUnderflow := ⟨by decide, _, rfl, by decide⟩
theorem witness_ErrorCauses_draw :
    let s := { State.reset with I := 0xFFF#16 }
    s.err = none ∧ ∃ t, exec (.drw 0x1#4 0x2#4 0x2#4) s = .next t ∧ t.err = some .outOfBounds := ⟨by decide, _, rfl, by decide⟩
theorem witness_ErrorCauses_key :
    let s := regs [(0x0#4, 0x10#8)]
    s.err = none ∧ ∃ t, exec (.skp 0x0#4) s = .next t ∧ t.err = some .outOfBounds := ⟨by decide, _, rfl, by decide⟩
theorem witness_StepKeepsInvariants :
    Inv State.reset ∧ ∃ t, step State.reset = .next t := ⟨by unfold Inv; decide, _, rfl⟩
theorem witness_Inv_edge :
    let s := { State.reset with pc := 0x10FE#16, stack := Vector.replicate 16 0x1000#16, sp := 16, mem := [(0xFFF, 1#8)] }
    Inv s ∧ ∃ t, step s = .next t := ⟨by unfold Inv; decide, _, rfl⟩
theorem witness_RunsKeepInvariants :
    Inv (poke 0xFFF [0x01] State.reset) := by unfold Inv; decide
theorem witness_OnlyResetClearsError :
    { State.reset with err := some .outOfBounds }.err ≠ none ∧
      ∀ e ∈ [Event.step, .host (.loadProgram [0x00, 0xE0]), .host (.setKeys 1#16), .host .clearRedraw], e ≠ .host .reset := by decide

/-! What may change what -/

theorem witness_InstructionWrites :
    let s := { State.reset with redraw := true }
    s.redraw = true ∧ (∃ t, exec .cls s = .next t) ∧ (Instr.cls ≠ .ret) ∧ (∀ x, Instr.cls ≠ .storeVx x) := ⟨by decide, ⟨_, rfl⟩, by decide, by decide⟩
theorem witness_InstructionWritesRegisters :
    (∃ t, exec (.addVxVy 0x1#4 0x2#4) State.reset = .next t) ∧ ¬ WritesReg (.addVxVy 0x1#4 0x2#4) 0x2#4 := ⟨⟨_, rfl⟩, by unfold WritesReg; decide⟩
theorem witness_KeysNotRead :
    (∃ t, exec (.jp 0x200#12) State.reset = .next t) ∧ (∀ x, Instr.jp 0x200#12 ≠ .skp x) ∧ (∀ x, Instr.jp 0x200#12 ≠ .ldVxK x) ∧
      (∀ x, Instr.jp 0x200#12 ≠ .ldSTVx x) := ⟨⟨_, rfl⟩, by decide, by decide, by decide⟩
theorem witness_SoundTimerWritten :
    ∃ t, exec (.ldSTVx 0x3#4) State.reset = .next t := ⟨_, rfl⟩

/-! The host -/

theorem witness_LoadProgram_fits :
    Memory.wf State.reset.mem = true ∧ (List.replicate 3584 0x12#8).length ≤ 3584 := ⟨by decide, Nat.le_of_eq List.length_replicate⟩
theorem witness_LoadProgram_too_large :
    Memory.wf State.reset.mem = true ∧ 3584 < (List.replicate 3585 0x12#8).length := ⟨by decide, by rw [List.length_replicate]; decide⟩
theorem witness_Parked :
    ParkedAt 0x20C#12 (poke 0x20C [0x12, 0x0C] { State.reset with pc := 0x20C#16, DT := 3#8 }) = true := by decide

end Sys2Proof.Tests
end

section
/-! The host's operations that always succeed (`Reset`, `SetKeys`, `ClearRedraw`): the state each one answers. -/

namespace Sys2Proof.Machine

/-- R190; the counter of free draws is the one piece that survives (log 19). -/
@[simp] theorem applyHost_reset (s : State) :
    applyHost .reset s = .next { State.reset with draws := s.draws } := rfl

/-- R30. -/
@[simp] theorem applyHost_setKeys (k : Word) (s : State) :
    applyHost (.setKeys k) s = .next { s with keys := k } := rfl

/-- R32. -/
@[simp] theorem applyHost_clearRedraw (s : State) :
    applyHost .clearRedraw s = .next { s with redraw := false } := rfl

/-- Settles O57, one operation at a time. -/
theorem hostOperations : Obligations.HostOperations := by
  intro s
  exact ⟨applyHost_reset s, fun k => applyHost_setKeys k s, applyHost_clearRedraw s⟩

end Sys2Proof.Machine
end

section
/-! What one instruction can do to the state, said once for all 34: the frames and the invariants below are read off it. -/

namespace Sys2Proof.Machine

open Sys2Proof.Claims

/-- How an instruction that has changed its destinations (state `u`) ends: it completes and `pc` advances, or one of its
memory accesses raised OutOfBounds (R170). -/
def Ending (u t : State) : Prop := t = u.advance ∨ t = u.nextDraw.raise .outOfBounds

/-- Everything instruction `i` can make of state `s` (the access table, R38). -/
inductive Effect (s : State) : Instr → State → Prop
  /-- an error taken before anything changes -/
  | raise {i : Instr} {e : ErrorKind} (he : e ≠ .programTooLarge) : Effect s i (s.raise e)
  /-- `LD Vx,K` with no key down (R152) -/
  | wait (x : Nibble) : Effect s (.ldVxK x) s
  /-- `JP`; the bound is the farthest any jump of the set reaches (R25) -/
  | jump {i : Instr} {w : Word} (hw : w.toNat ≤ 0x10FE) : Effect s i (s.jumpTo w)
  /-- the conditional skips -/
  | skip {i : Instr} (c : Bool) : Effect s i (s.skipIf c)
  | call {nnn : Addr12} {u : State} (hu : s.push s.npc = some u) : Effect s (.call nnn) (u.jumpTo (addrOperand nnn))
  | ret {v : Word} {u : State} (hu : s.pop = some (v, u)) : Effect s .ret (u.jumpTo v)
  /-- loads of registers, arithmetic and logic; a free draw may be counted -/
  | registers {i : Instr} {V : RegFile} {t : State} (d : Nat)
      (hV : ∀ r : Nibble, ¬ WritesReg i r → V[r.toNat] = s.V[r.toNat])
      (ht : Ending { s with V := V, draws := d } t) : Effect s i t
  /-- the two stores, completed or not -/
  | memory {i : Instr} {m : Memory} {t : State} (hi : ∃ x, i = .ldBVx x ∨ i = .storeVx x)
      (hm : Memory.wf s.mem = true → Memory.wf m = true) (ht : Ending { s with mem := m } t) : Effect s i t
  /-- `CLS` and `DRW`, completed or not -/
  | screen {i : Instr} {V : RegFile} {fb : Screen} {rd : Bool} {t : State} (hi : i = .cls ∨ ∃ x y n, i = .drw x y n)
      (hV : ∀ r : Nibble, ¬ WritesReg i r → V[r.toNat] = s.V[r.toNat]) (hr : s.redraw = true → rd = true)
      (ht : Ending { s with V := V, FB := fb, redraw := rd } t) : Effect s i t
  | index {i : Instr} (w : Word) (hi : (∃ nnn, i = .ldI nnn) ∨ ∃ x, i = .addIVx x ∨ i = .ldFVx x) :
      Effect s i (s.setIndex w).advance
  | delayTimer (x : Nibble) : Effect s (.ldDTVx x) { s with DT := s.reg x }.advance
  | soundTimer (x : Nibble) : Effect s (.ldSTVx x) { s with ST := s.reg x }.advance

/-! ### The shared meanings -/

theorem Effect.write {i : Instr} {s : State} {x : Nibble} (v : Byte) (d : Nat) (hx : WritesReg i x) :
    Effect s i (({ s with draws := d } : State).write x v) :=
  .registers d (fun r hr => (State.reg_write s x v r).trans (if_neg fun e : r = x => hr (e ▸ hx))) (.inl rfl)

theorem Effect.flagWrite {i : Instr} {s : State} {x : Nibble} (b : Bool) (v : Byte) (hx : WritesReg i x)
    (hf : WritesReg i vf) : Effect s i ((s.setFlag b).write x v) := by
  refine .registers s.draws (fun r hr => ?_) (.inl rfl)
  calc ((s.setFlag b).write x v).reg r
      _ = (s.setFlag b).reg r := (State.reg_write _ x v r).trans (if_neg fun e : r = x => hr (e ▸ hx))
      _ = s.reg r := (State.reg_setFlag s b r).trans (if_neg fun e : r = vf => hr (e ▸ hf))

theorem Effect.storeThrough {i : Instr} (s : State) (p : PartialEffects) (bytes : List Byte)
    (hi : ∃ x, i = .ldBVx x ∨ i = .storeVx x) : Effect s i (storeThrough p bytes s) := by
  obtain ⟨m, hm, ht⟩ | ⟨-, ht⟩ := storeThrough_cases p bytes s
  · exact .memory hi (fun hwf => (storeBlock_spec hwf hm).1) (.inl ht)
  · exact .memory hi (fun hwf => (storePrefix_spec _ _ 0 bytes hwf).1) (.inr ht)

/-- The registers a block of at most `x + 1` bytes leaves alone are those above `Vx` (R135). -/
theorem setRegsFrom_above (take : Nat → Bool) (v : RegFile) {bytes : List Byte} {x r : Nibble}
    (hlen : bytes.length ≤ x.toNat + 1) (hr : ¬ r.toNat ≤ x.toNat) :
    (setRegsFrom take v 0 bytes)[r.toNat] = v[r.toNat] := by
  rw [setRegsFrom_get take v 0 bytes r.toNat r.isLt, dif_neg]
  rintro ⟨-, hlt, -⟩
  omega

theorem Effect.loadThrough (s : State) (p : PartialEffects) (x : Nibble) :
    Effect s (.loadVx x) (loadThrough p x s) := by
  obtain ⟨bytes, hb, ht⟩ | ⟨-, ht⟩ := loadThrough_cases p x s
  · have hlen : bytes.length ≤ x.toNat + 1 := (loadBlock_spec hb).1.le
    exact .registers s.draws (fun r hr => setRegsFrom_above _ _ hlen hr) (.inl ht)
  · have hlen : (loadPrefix s.mem s.dataAddr (x.toNat + 1)).length ≤ x.toNat + 1 := by
      rw [(loadPrefix_spec _ _ _).1]
      exact Nat.min_le_left _ _
    exact .registers s.draws (fun r hr => setRegsFrom_above _ _ hlen hr) (.inr ht)

theorem partialRedraw_of_set (p : PartialEffects) (n : Nat) : partialRedraw p n true = true := by
  cases p with
  | any => exact Bool.true_or (Config.partialRedraw n)
  | ascending => rfl

theorem Effect.drawWhole (s : State) (edge : DrwEdge) (x y n : Nibble) (rows : List Byte) :
    Effect s (.drw x y n) (drawWhole edge (s.reg x) (s.reg y) rows s) :=
  .screen (.inr ⟨x, y, n, rfl⟩) (fun r hr => (State.reg_setFlag s _ r).trans (if_neg hr)) (fun _ => rfl) (.inl rfl)

theorem Effect.drawPart (s : State) (p : PartialEffects) (edge : DrwEdge) (x y n : Nibble) (rows : List Byte) :
    Effect s (.drw x y n) (drawPart p edge (s.reg x) (s.reg y) rows s) :=
  .screen (.inr ⟨x, y, n, rfl⟩) (fun r hr => (State.reg_setReg s vf _ r).trans (if_neg hr))
    (fun hs => hs ▸ partialRedraw_of_set p s.draws) (.inr rfl)

theorem Effect.waitKey (s : State) (p : KeyPick) (x : Nibble) : Effect s (.ldVxK x) (waitKey p x s) := by
  unfold Machine.waitKey
  split
  · exact .wait x
  · exact Effect.write _ (s.draws + 1) rfl

theorem addrOperand_toNat (nnn : Addr12) : (addrOperand nnn).toNat = nnn.toNat :=
  BitVec.toNat_setWidth_of_le (by decide)

theorem byteOperand_toNat (b : Byte) : (byteOperand b).toNat = b.toNat :=
  BitVec.toNat_setWidth_of_le (by decide)

/-- The farthest jump: `JP V0` with V0 = 0xFF and the address 0xFFF (R25). -/
theorem byteOperand_add_addrOperand_le (b : Byte) (nnn : Addr12) :
    (byteOperand b + addrOperand nnn).toNat ≤ 0x10FE := by
  rw [BitVec.toNat_add, byteOperand_toNat, addrOperand_toNat]
  have := b.isLt
  have := nnn.isLt
  omega

theorem addrOperand_le (nnn : Addr12) : (addrOperand nnn).toNat ≤ 0x10FE := by
  rw [addrOperand_toNat]
  have := nnn.isLt
  omega

/-- Every instruction answers a next state, and one of its effects. -/
theorem exec_effect (i : Instr) (s : State) : ∃ t, exec i s = .next t ∧ Effect s i t := by
  cases i with
  | cls => exact ⟨_, rfl, .screen (.inl rfl) (fun _ _ => rfl) (fun _ => rfl) (.inl rfl)⟩
  | ret =>
    cases hp : s.pop with
    | none => exact ⟨s.raise .stackUnderflow, by simp only [exec, execRet, hp], .raise (by decide)⟩
    | some vu => exact ⟨_, by simp only [exec, execRet, hp], .ret hp⟩
  | call nnn =>
    cases hp : s.push s.npc with
    | none => exact ⟨s.raise .stackOverflow, by simp only [exec, execCall, hp], .raise (by decide)⟩
    | some u => exact ⟨_, by simp only [exec, execCall, hp], .call hp⟩
  | jp nnn => exact ⟨_, rfl, .jump (addrOperand_le nnn)⟩
  | jpV0 nnn => exact ⟨_, rfl, .jump (byteOperand_add_addrOperand_le _ nnn)⟩
  | seVxKk | sneVxKk | seVxVy | sneVxVy => exact ⟨_, rfl, .skip _⟩
  | skp x | sknp x =>
    by_cases hk : 15 < (s.reg x).toNat
    · exact ⟨_, if_pos hk, .raise (by decide)⟩
    · exact ⟨_, if_neg hk, .skip _⟩
  | ldVxKk | addVxKk | ldVxVy | orVxVy | andVxVy | xorVxVy | ldVxDT => exact ⟨_, rfl, Effect.write _ s.draws rfl⟩
  | rnd => exact ⟨_, rfl, Effect.write _ (s.draws + 1) rfl⟩
  | addVxVy | subVxVy | subnVxVy | shrVx | shlVx => exact ⟨_, rfl, Effect.flagWrite _ _ (.inl rfl) (.inr rfl)⟩
  | ldVxK x => exact ⟨_, rfl, Effect.waitKey s _ x⟩
  | ldI nnn => exact ⟨_, rfl, .index _ (.inl ⟨nnn, rfl⟩)⟩
  | addIVx x => exact ⟨_, rfl, .index _ (.inr ⟨x, .inl rfl⟩)⟩
  | ldFVx x => exact ⟨_, rfl, .index _ (.inr ⟨x, .inr rfl⟩)⟩
  | ldDTVx x => exact ⟨_, rfl, .delayTimer x⟩
  | ldSTVx x => exact ⟨_, rfl, .soundTimer x⟩
  | ldBVx x => exact ⟨_, rfl, Effect.storeThrough s _ _ ⟨x, .inl rfl⟩⟩
  | storeVx x => exact ⟨_, rfl, Effect.storeThrough s _ _ ⟨x, .inr rfl⟩⟩
  | loadVx x => exact ⟨_, rfl, Effect.loadThrough s _ x⟩
  | drw x y n =>
    show ∃ t, execDrw x y n s = .next t ∧ _
    unfold execDrw
    split
    · exact ⟨_, rfl, Effect.drawWhole s _ x y n _⟩
    · exact ⟨_, rfl, Effect.drawPart s _ _ x y n _⟩

theorem effect_of_exec {i : Instr} {s t : State} (h : exec i s = .next t) : Effect s i t := by
  obtain ⟨u, hu, heff⟩ := exec_effect i s
  rw [h] at hu
  cases hu
  exact heff

end Sys2Proof.Machine
end

section
/-! What one step can do: the halted machine, the two errors of fetch and decode, and the executed instruction with the
timer phase after it (R40). -/

namespace Sys2Proof.Machine

/-- The fetch and the decode raise OutOfBounds or UnknownOpcode (R161, R164). -/
theorem fetchDecode_error {s : State} {e : ErrorKind} (h : s.fetchDecode = .error e) :
    e = .outOfBounds ∨ e = .unknownOpcode := by
  unfold State.fetchDecode at h
  split at h
  · exact .inl (Except.error.inj h).symm
  · split at h
    · cases h
    · exact .inr (Except.error.inj h).symm

/-- An instruction is fetched from inside memory only (R54, R56). -/
theorem fetchDecode_pc_lt {s : State} {i : Instr} (h : s.fetchDecode = .ok i) : s.pc.toNat + 1 < 4096 := by
  by_contra hpc
  have hf : s.fetch = none := if_pos (Nat.le_of_not_lt hpc)
  rw [State.fetchDecode, hf] at h
  cases h

/-- Fetch and decode where the two bytes at `pc` lie in memory (R40). -/
theorem fetchDecode_of_decode {s : State} {i : Instr} {rest : List Byte} (hpc : s.pc.toNat + 1 < 4096)
    (hd : decode [Memory.read s.mem s.pc.toNat, Memory.read s.mem (s.pc.toNat + 1)] = .ok (i, rest)) :
    s.fetchDecode = .ok i := by
  have hf : s.fetch = some [Memory.read s.mem s.pc.toNat, Memory.read s.mem (s.pc.toNat + 1)] :=
    if_neg (Nat.not_le_of_lt hpc)
  simp only [State.fetchDecode, hf, hd]

theorem State.halted_eq_false_iff (s : State) : s.halted = false ↔ s.err = none :=
  Option.isSome_eq_false_iff.trans Option.isNone_iff_eq_none

theorem step_of_halted {s : State} (h : s.halted = true) : step s = .next s := if_pos h

theorem step_of_error {s : State} {e : ErrorKind} (hh : s.halted = false) (h : s.fetchDecode = .error e) :
    step s = .next (s.raise e) := by
  simp only [step, hh, h, Bool.false_eq_true, if_false]

theorem step_of_ok {s : State} {i : Instr} (hh : s.halted = false) (h : s.fetchDecode = .ok i) :
    step s = finishStep (exec i s) := by
  simp only [step, hh, h, Bool.false_eq_true, if_false]

/-- The three ways a step can go (R40, R170, R172). -/
inductive StepEffect (s : State) : State → Prop
  | halted (hh : s.halted = true) : StepEffect s s
  | error {e : ErrorKind} (hh : s.halted = false) (hf : s.fetchDecode = .error e) : StepEffect s (s.raise e)
  | executed {i : Instr} {u : State} (hh : s.halted = false) (hf : s.fetchDecode = .ok i) (hu : exec i s = .next u) :
      StepEffect s u.timerPhase

/-- Every step answers a next state, and goes one of the three ways. -/
theorem step_effect (s : State) : ∃ t, step s = .next t ∧ StepEffect s t := by
  cases hh : s.halted with
  | true => exact ⟨s, step_of_halted hh, .halted hh⟩
  | false =>
    cases hf : s.fetchDecode with
    | error e => exact ⟨s.raise e, step_of_error hh hf, .error hh hf⟩
    | ok i =>
      obtain ⟨u, hu, -⟩ := exec_effect i s
      exact ⟨u.timerPhase, by rw [step_of_ok hh hf, hu, finishStep], .executed hh hf hu⟩

/-- The inversion of a step. -/
theorem effect_of_step {s t : State} (h : step s = .next t) : StepEffect s t := by
  obtain ⟨u, hu, heff⟩ := step_effect s
  rw [h] at hu
  cases hu
  exact heff

/-- Settles O47: each of the three ways a step can go ends in a next state. -/
theorem stepAlwaysAnswersNext : Obligations.StepAlwaysAnswersNext := by
  intro s
  obtain ⟨t, ht, -⟩ := step_effect s
  exact ⟨t, ht⟩

/-- The timer phase in full (R28, R176). -/
theorem timerPhase_eq (t : State) :
    t.timerPhase =
      if t.err = none then
        { t with
          DT := if t.DT = 0#8 then 0#8 else t.DT - 1#8
          ST := if t.ST = 0#8 then 0#8 else t.ST - 1#8 }
      else t := by
  by_cases he : t.err = none
  · rw [if_pos he, State.timerPhase_of_running ((State.halted_eq_false_iff t).mpr he)]
    rfl
  · rw [if_neg he, State.timerPhase_of_halted (Option.isSome_iff_ne_none.mpr he)]

/-- Settles O40: the fetch answers the two bytes, the decode the instruction, and the timer phase follows. -/
theorem stepRunsDecodedInstruction : Obligations.StepRunsDecodedInstruction := by
  intro s i rest herr hpc hd
  obtain ⟨t, ht, -⟩ := exec_effect i s
  rw [step_of_ok ((State.halted_eq_false_iff s).mpr herr) (fetchDecode_of_decode hpc hd), ht]
  simp only [finishStep, timerPhase_eq]
  split <;> rfl

end Sys2Proof.Machine
end

section
/-! The invariants of R44: at reset, over a step and over a run of both agents. -/

namespace Sys2Proof.Machine

theorem inv_raise {s : State} {e : ErrorKind} (hs : Inv s) (he : e ≠ .programTooLarge) : Inv (s.raise e) := by
  obtain ⟨hmem, hpc, hstack, -⟩ := hs
  exact ⟨hmem, hpc, hstack, fun h => he (Option.some.inj h)⟩

theorem inv_jumpTo {s : State} {w : Word} (hs : Inv s) (hw : w.toNat ≤ 0x10FE) : Inv (s.jumpTo w) := by
  obtain ⟨hmem, -, hstack, herr⟩ := hs
  exact ⟨hmem, hw, hstack, herr⟩

theorem inv_timerPhase {s : State} (hs : Inv s) : Inv s.timerPhase := by
  unfold State.timerPhase
  split
  · exact hs
  · exact hs

/-- `npc` of an instruction fetched inside memory (R25). -/
theorem npc_toNat {s : State} (hpc : s.pc.toNat + 1 < 4096) : s.npc.toNat = s.pc.toNat + 2 := by
  rw [State.npc_eq, BitVec.toNat_add]
  exact Nat.mod_eq_of_lt (by simp only [BitVec.toNat_ofNat]; omega)

theorem inv_advance {s : State} (hs : Inv s) (hpc : s.pc.toNat + 1 < 4096) : Inv s.advance :=
  inv_jumpTo hs (by rw [npc_toNat hpc]; omega)

/-- A skip from the last instruction of memory reaches 0x1002 (R25). -/
theorem inv_skipIf {s : State} (c : Bool) (hs : Inv s) (hpc : s.pc.toNat + 1 < 4096) : Inv (s.skipIf c) := by
  refine inv_jumpTo hs ?_
  have hn := npc_toNat hpc
  cases c with
  | false => simp only [Bool.false_eq_true, if_false]; omega
  | true => simp only [if_true, BitVec.toNat_add, BitVec.toNat_ofNat]; omega

theorem inv_ending {u t : State} (ht : Ending u t) (hu : Inv u) (hpc : u.pc.toNat + 1 < 4096) : Inv t := by
  obtain rfl | rfl := ht
  · exact inv_advance hu hpc
  · exact inv_raise hu (by decide)

/-- A pushed return address is at most 0x1000, since the CALL was fetched inside memory (R26). -/
theorem inv_push {s u : State} {v : Word} (hs : Inv s) (hv : v.toNat ≤ 0x1000) (hu : s.push v = some u) : Inv u := by
  obtain ⟨hmem, hpc, hstack, herr⟩ := hs
  obtain ⟨hsp, rfl⟩ := State.push_eq_some hu
  refine ⟨hmem, hpc, fun k => ?_, herr⟩
  show ((s.stack.set s.sp.val v)[k.val]).toNat ≤ 0x1000
  rw [Vector.getElem_set]
  split
  · exact hv
  · exact hstack k

/-- A popped address is one the stack held, so RET stays in range (R25, R26). -/
theorem inv_pop {s u : State} {v : Word} (hs : Inv s) (hu : s.pop = some (v, u)) : Inv (u.jumpTo v) := by
  obtain ⟨hmem, -, hstack, herr⟩ := hs
  obtain ⟨-, hv, hut, -⟩ := State.pop_eq_some hu
  obtain ⟨hlt, rfl⟩ := Vector.getElem?_eq_some_iff.mp hv
  have hle := hstack ⟨s.sp.val - 1, hlt⟩
  rw [hut]
  exact ⟨hmem, Nat.le_trans hle (by decide), hstack, herr⟩

/-- An instruction fetched inside memory keeps the invariants, whichever of its effects it has. -/
theorem inv_effect {s t : State} {i : Instr} (hs : Inv s) (hpc : s.pc.toNat + 1 < 4096) (h : Effect s i t) : Inv t := by
  cases h with
  | raise he => exact inv_raise hs he
  | wait => exact hs
  | jump hw => exact inv_jumpTo hs hw
  | skip c => exact inv_skipIf c hs hpc
  | call hu => exact inv_jumpTo (inv_push hs (by rw [npc_toNat hpc]; omega) hu) (addrOperand_le _)
  | ret hu => exact inv_pop hs hu
  | registers _ _ ht => exact inv_ending ht hs hpc
  | memory _ hm ht =>
    obtain ⟨hmem, hrest⟩ := hs
    exact inv_ending ht ⟨hm hmem, hrest⟩ hpc
  | screen _ _ _ ht => exact inv_ending ht hs hpc
  | index w => exact inv_advance (s := s.setIndex w) hs hpc
  | delayTimer x => exact inv_advance (s := { s with DT := s.reg x }) hs hpc
  | soundTimer x => exact inv_advance (s := { s with ST := s.reg x }) hs hpc

/-- Settles O48: a halted step is no change, a fetch or decode error touches `err` alone, and `inv_effect` has the rest. -/
theorem stepKeepsInvariants : Obligations.StepKeepsInvariants := by
  intro s t hs h
  cases effect_of_step h with
  | halted => exact hs
  | error _ hf => exact inv_raise hs (by obtain rfl | rfl := fetchDecode_error hf <;> decide)
  | executed _ hf hu => exact inv_timerPhase (inv_effect hs (fetchDecode_pc_lt hf) (effect_of_exec hu))

/-- Settles O49: memory lists nothing, and every stack entry is 0. -/
theorem resetMeetsInvariants : Obligations.ResetMeetsInvariants := by
  refine ⟨Memory.wf_nil, by decide, fun k => ?_, by decide⟩
  show ((Vector.replicate 16 0#16)[k.val]).toNat ≤ 0x1000
  rw [Vector.getElem_replicate]
  decide

/-- The host's Reset differs from the reset state in the model's counter alone, which `Inv` does not mention (log 19). -/
theorem inv_hostReset (s : State) : Inv (hostReset s) := resetMeetsInvariants

theorem inv_applyHost {op : HostOp} {s t : State} (hs : Inv s) (h : applyHost op s = .next t) : Inv t := by
  cases op with
  | reset => cases h; exact inv_hostReset s
  | setKeys k => cases h; exact hs
  | clearRedraw => cases h; exact hs
  | loadProgram bytes =>
    simp only [applyHost, loadProgram] at h
    split at h
    · cases h
      obtain ⟨hmem, hrest⟩ := hs
      exact ⟨(storePrefix_spec _ _ 0 bytes hmem).1, hrest⟩
    · cases h

theorem inv_applyEvent {e : Event} {s t : State} (hs : Inv s) (h : applyEvent e s = .next t) : Inv t := by
  cases e with
  | step => exact stepKeepsInvariants s t hs h
  | host op => exact inv_applyHost hs h

/-- Settles O50, by induction on the run. -/
theorem runsKeepInvariants : Obligations.RunsKeepInvariants := by
  intro es
  induction es with
  | nil => exact fun s hs => hs
  | cons e es ih =>
    intro s hs
    unfold runEvents
    split
    · next t ht => exact ih t (inv_applyEvent hs ht)
    · exact ih s hs
    · exact ih s hs

end Sys2Proof.Machine
end

section
/-! What an instruction leaves alone, piece by piece (R38), and what it does not read. -/

namespace Sys2Proof.Machine

open Sys2Proof.Claims

/-- An ending moves `pc`, latches an error or counts a draw; the pieces of the access table are those of `u`. -/
theorem ending_frame {u t : State} (h : Ending u t) :
    t = { u with pc := t.pc, err := t.err, draws := t.draws } := by
  obtain rfl | rfl := h <;> rfl

/-- Settles O52, effect by effect: each lists the instructions that have it. -/
theorem instructionWritesOnlyItsState : Obligations.InstructionWritesOnlyItsState := by
  intro i s t h
  cases effect_of_exec h with
  | raise | wait | jump | skip | delayTimer | soundTimer => simp
  | call hu =>
    obtain ⟨_, rfl⟩ := State.push_eq_some hu
    simp
  | ret hu =>
    obtain ⟨-, -, hu, -⟩ := State.pop_eq_some hu
    rw [hu]
    simp
  | registers _ _ ht =>
    rw [ending_frame ht]
    simp
  | memory hi _ ht =>
    rw [ending_frame ht]
    obtain ⟨x, rfl | rfl⟩ := hi <;> simp
  | screen hi _ hr ht =>
    rw [ending_frame ht]
    obtain rfl | ⟨x, y, n, rfl⟩ := hi <;> simpa using hr
  | index w hi => obtain ⟨nnn, rfl⟩ | ⟨x, rfl | rfl⟩ := hi <;> simp

/-- Settles O53: three effects write registers, and each says which it leaves alone. -/
theorem instructionWritesOnlyItsRegisters : Obligations.InstructionWritesOnlyItsRegisters := by
  intro i s t r h hr
  cases effect_of_exec h with
  | raise | wait | jump | skip | index | delayTimer | soundTimer => rfl
  | call hu =>
    obtain ⟨_, rfl⟩ := State.push_eq_some hu
    rfl
  | ret hu =>
    obtain ⟨-, -, hu, -⟩ := State.pop_eq_some hu
    rw [hu]
    rfl
  | registers _ hV ht =>
    rw [ending_frame ht]
    exact hV r hr
  | memory _ _ ht =>
    rw [ending_frame ht]
    rfl
  | screen _ hV _ ht =>
    rw [ending_frame ht]
    exact hV r hr

/-! ### The keys and the sound timer are not read -/

/-- `s` with other keys and another sound timer. -/
def rekey (k : Word) (v : Byte) (s : State) : State := { s with keys := k, ST := v }

theorem rekey_of_ST {s : State} {v : Byte} (hv : s.ST = v) (k : Word) : rekey k v s = { s with keys := k } := by
  subst hv
  rfl

theorem rekey_of_keys {s : State} {k : Word} (hk : s.keys = k) (v : Byte) : rekey k v s = { s with ST := v } := by
  subst hk
  rfl

theorem pop_rekey (k : Word) (v : Byte) (s : State) : (rekey k v s).pop = s.pop.map fun (w, u) => (w, rekey k v u) := by
  unfold State.pop
  by_cases hs : 0 < s.sp.val
  · rw [dif_pos hs]; exact dif_pos hs
  · rw [dif_neg hs]; exact dif_neg hs

theorem push_rekey (k : Word) (v : Byte) (s : State) (w : Word) : (rekey k v s).push w = (s.push w).map (rekey k v) := by
  unfold State.push
  by_cases hs : s.sp.val < 16
  · rw [dif_pos hs]; exact dif_pos hs
  · rw [dif_neg hs]; exact dif_neg hs

theorem storeThrough_rekey (p : PartialEffects) (bytes : List Byte) (k : Word) (v : Byte) (s : State) :
    storeThrough p bytes (rekey k v s) = rekey k v (storeThrough p bytes s) := by
  simp only [storeThrough, rekey, State.dataAddr]
  split <;> rfl

theorem loadThrough_rekey (p : PartialEffects) (x : Nibble) (k : Word) (v : Byte) (s : State) :
    loadThrough p x (rekey k v s) = rekey k v (loadThrough p x s) := by
  simp only [loadThrough, rekey, State.dataAddr]
  split <;> rfl

theorem waitKey_rekey (p : KeyPick) (x : Nibble) (v : Byte) (s : State) :
    waitKey p x (rekey s.keys v s) = rekey s.keys v (waitKey p x s) := by
  simp only [waitKey, rekey]
  split <;> rfl

/-- The instructions that read the keys (R38). -/
def ReadsKeys : Instr → Prop
  | .skp _ | .sknp _ | .ldVxK _ => True
  | _ => False

/-- Other keys, where the instruction does not read them, and another sound timer, unless it writes that one, are passed on
and make no other difference. -/
theorem exec_rekey {i : Instr} {k : Word} {s : State} (v : Byte) (hsound : ∀ x, i ≠ .ldSTVx x)
    (hkeys : ReadsKeys i → k = s.keys) :
    ∃ t, exec i s = .next t ∧ exec i (rekey k v s) = .next (rekey k v t) := by
  cases i with
  | ldSTVx x => exact absurd rfl (hsound x)
  | skp x | sknp x =>
    obtain rfl := hkeys trivial
    by_cases hk : 15 < (s.reg x).toNat
    · exact ⟨_, if_pos hk, if_pos hk⟩
    · exact ⟨_, if_neg hk, if_neg hk⟩
  | ldVxK x =>
    obtain rfl := hkeys trivial
    exact ⟨_, rfl, congrArg _ (waitKey_rekey _ x v s)⟩
  | ret =>
    simp only [exec, execRet, pop_rekey]
    cases s.pop with
    | none => exact ⟨_, rfl, rfl⟩
    | some wu => exact ⟨_, rfl, rfl⟩
  | call nnn =>
    have hnpc : (rekey k v s).npc = s.npc := rfl
    simp only [exec, execCall, hnpc, push_rekey]
    cases s.push s.npc with
    | none => exact ⟨_, rfl, rfl⟩
    | some u => exact ⟨_, rfl, rfl⟩
  | drw x y n =>
    have hblock : loadBlock (rekey k v s).mem (rekey k v s).dataAddr = loadBlock s.mem s.dataAddr := rfl
    simp only [exec, execDrw, hblock]
    cases loadBlock s.mem s.dataAddr n.toNat with
    | none => exact ⟨_, rfl, rfl⟩
    | some rows => exact ⟨_, rfl, rfl⟩
  | ldBVx x => exact ⟨_, rfl, congrArg _ (storeThrough_rekey _ _ k v s)⟩
  | storeVx x => exact ⟨_, rfl, congrArg _ (storeThrough_rekey _ _ k v s)⟩
  | loadVx x => exact ⟨_, rfl, congrArg _ (loadThrough_rekey _ x k v s)⟩
  | _ => exact ⟨_, rfl, rfl⟩

theorem exec_rekey_of_next {i : Instr} {k : Word} {s t : State} (v : Byte) (hsound : ∀ x, i ≠ .ldSTVx x)
    (hkeys : ReadsKeys i → k = s.keys) (h : exec i s = .next t) :
    exec i (rekey k v s) = .next (rekey k v t) := by
  obtain ⟨u, hu, hk⟩ := exec_rekey v hsound hkeys
  rw [h] at hu
  cases hu
  exact hk

/-- Settles O54: `exec_rekey` with the sound timer or the keys as they are, which the instruction keeps (O52). LD ST,Vx is
apart, since it overwrites the sound timer. -/
theorem keysAndSoundTimerAreNotRead : Obligations.KeysAndSoundTimerAreNotRead := by
  intro i s t h
  obtain ⟨hkeys, -, -, -, -, -, hST, -⟩ := instructionWritesOnlyItsState i s t h
  refine ⟨fun k h1 h2 h3 => ?_, fun v hi => ?_, fun v x hi => ?_⟩
  · by_cases hi : ∃ x, i = .ldSTVx x
    · obtain ⟨x, rfl⟩ := hi
      cases h
      rfl
    · have hsound : ∀ x, i ≠ .ldSTVx x := not_exists.mp hi
      have hread : ReadsKeys i → k = s.keys := by
        cases i with
        | skp x => exact absurd rfl (h1 x)
        | sknp x => exact absurd rfl (h2 x)
        | ldVxK x => exact absurd rfl (h3 x)
        | _ => exact False.elim
      have hk := exec_rekey_of_next s.ST hsound hread h
      rwa [rekey_of_ST rfl, rekey_of_ST (hST hsound)] at hk
  · have hk := exec_rekey_of_next v hi (fun _ => rfl) h
    rwa [rekey_of_keys rfl, rekey_of_keys hkeys] at hk
  · subst hi
    cases h
    rfl

end Sys2Proof.Machine
end

section
/-! The state after reset, piece by piece (R36). -/

namespace Sys2Proof.Machine

/-- Memory at reset under any GLYPHS: the glyph area, and 0 outside it (R53, D4). -/
theorem memRead_reset {a : Nat} (ha : a < 4096) :
    memRead State.reset.mem a = if 0x050 ≤ a ∧ a < 0x0A0 then glyphs[a - 0x050]? else some 0#8 := by
  have hread : memRead State.reset.mem a = some (resetByteOf glyphs a) := memRead_of_lt ha
  rw [hread]
  split
  · next hg => exact (resetByteOf_glyph glyphs hg).symm
  · next hg => rw [resetByteOf_other glyphs hg]

theorem pixelAt_replicate_zero (px : Fin 64) (py : Fin 32) : pixelAt (Vector.replicate 32 0#64) px py = false := by
  unfold pixelAt
  rw [Fin.getElem_fin, Vector.getElem_replicate]
  exact BitVec.getLsbD_zero

/-- Settles O55. -/
theorem resetValues : Obligations.ResetValues := by
  refine ⟨fun a => memRead_reset, fun r => ?_, fun k => ?_, pixelAt_replicate_zero,
    rfl, rfl, rfl, rfl, rfl, rfl, rfl, rfl⟩
  · exact Vector.getElem_replicate r.isLt
  · exact Vector.getElem_replicate k.isLt

end Sys2Proof.Machine
end

section
/-! Stored instructions: a block of registers stored where the next fetch reads is what it fetches (R62, D27). -/

namespace Sys2Proof.Machine

/-- The fetch of an instruction that lies in memory (R54). -/
theorem State.fetch_of_lt {s : State} (hpc : s.pc.toNat + 1 < 4096) :
    s.fetch = some [Memory.read s.mem s.pc.toNat, Memory.read s.mem (s.pc.toNat + 1)] :=
  if_neg (Nat.not_le_of_lt hpc)

/-- `LD [I],Vx` whose block ends inside memory stores it and advances (R134). -/
theorem exec_storeVx_of_lt {x : Nibble} {s : State} (hfit : s.I.toNat + x.toNat < 4096) :
    ∃ m, storeBlock s.mem s.dataAddr (s.regBlock x) = some m ∧
      exec (.storeVx x) s = .next { s with mem := m, pc := s.pc + 2#16 } := by
  obtain ⟨m, hm, ht⟩ | ⟨hnone, -⟩ := storeThrough_cases Config.partialEffects (s.regBlock x) s
  · exact ⟨m, hm, congrArg _ ht⟩
  · have hend := ((storeBlock_eq_none_iff _ _ _).mp hnone).2
    rw [State.regBlock_length, State.dataAddr] at hend
    omega

/-- What a stored block of registers reads as: `V[k]` at offset `k`, `V[x]` the last (R134). -/
theorem read_of_storeBlock_regBlock {x : Nibble} {s : State} {m : Memory} {a k : Nat} (hwf : Memory.wf s.mem = true)
    (hm : storeBlock s.mem a (s.regBlock x) = some m) (hk : k ≤ x.toNat) :
    Memory.read m (a + k) = s.reg (BitVec.ofNat 4 k) := by
  have hlen : k < (s.regBlock x).length := by rw [State.regBlock_length]; omega
  have hin : a ≤ a + k ∧ a + k - a < (s.regBlock x).length := by omega
  rw [(storeBlock_spec hwf hm).2, dif_pos hin]
  simp only [Nat.add_sub_cancel_left]
  exact State.regBlock_get s x k hlen (Nat.lt_of_le_of_lt hk x.isLt)

/-- Settles O30: `I` is the next `pc`, so the fetch reads the stored block at offsets 0 and 1, which hold V0 and V1. -/
theorem storedBytesAreFetchedNext : Obligations.StoredBytesAreFetchedNext := by
  intro x s hwf hx hI hfit
  obtain ⟨m, hm, ht⟩ := exec_storeVx_of_lt hfit
  refine ⟨_, ht, hI.symm, ?_⟩
  have hV0 : Memory.read m s.I.toNat = s.reg 0#4 := read_of_storeBlock_regBlock hwf hm (Nat.zero_le _)
  have hV1 : Memory.read m (s.I.toNat + 1) = s.reg 1#4 := read_of_storeBlock_regBlock hwf hm hx
  rw [← hI, State.fetch_of_lt (by show s.I.toNat + 1 < 4096; omega), hV0, hV1]

end Sys2Proof.Machine
end

section
/-! The codec: what the rows of the opcode table say, decode and encode as inverses, and the decoder's other readings
(R72 to R83). -/

namespace Sys2Proof

/-! ### A row as match and mask (R75) -/

/-- A fixed place holds its own nibble, and so what the word has there. -/
theorem nibbleFits_iff (fixed : Option Nibble) (n : Nibble) : nibbleFits fixed n = true ↔ fixed.getD n = n := by
  cases fixed with
  | none => exact iff_of_true rfl rfl
  | some f => exact beq_iff_eq.trans eq_comm

theorem rowMatches_iff (w : Word) (r : OpcodeRow) : rowMatches w r = true ↔ r.fix3 = nib3 w ∧
    r.fix2.getD (nib2 w) = nib2 w ∧ r.fix1.getD (nib1 w) = nib1 w ∧ r.fix0.getD (nib0 w) = nib0 w := by
  simp only [rowMatches, Bool.and_eq_true, nibbleFits_iff, beq_iff_eq, eq_comm (a := nib3 w), and_assoc]

/-- The mask at one place of a row: F where the nibble is fixed, 0 at an operand (R75). -/
def placeMask (fixed : Option Nibble) : Nibble := if fixed.isSome then 0xF#4 else 0x0#4

/-- The match and mask of a row (R75). -/
def OpcodeRow.pattern (r : OpcodeRow) : Word × Word :=
  (wordOf r.fix3 (r.fix2.getD 0x0#4) (r.fix1.getD 0x0#4) (r.fix0.getD 0x0#4),
    wordOf 0xF#4 (placeMask r.fix2) (placeMask r.fix1) (placeMask r.fix0))

theorem and_placeMask (fixed : Option Nibble) (n : Nibble) :
    n &&& placeMask fixed = fixed.getD 0x0#4 ↔ fixed.getD n = n := by
  cases fixed with
  | none => exact iff_of_true BitVec.and_zero rfl
  | some f =>
    have hmask : n &&& placeMask (some f) = n := BitVec.and_allOnes
    rw [hmask]
    exact eq_comm

theorem wordOf_inj {a b c d a' b' c' d' : Nibble} :
    wordOf a b c d = wordOf a' b' c' d' ↔ a = a' ∧ b = b' ∧ c = c' ∧ d = d' := by
  constructor
  · intro h
    exact ⟨by simpa using congrArg nib3 h, by simpa using congrArg nib2 h, by simpa using congrArg nib1 h,
      by simpa using congrArg nib0 h⟩
  · rintro ⟨rfl, rfl, rfl, rfl⟩
    rfl

/-- "a word `op` selects the row when `op & mask = match`" (R75). -/
theorem rowMatches_iff_pattern (w : Word) (r : OpcodeRow) :
    rowMatches w r = true ↔ w &&& r.pattern.2 = r.pattern.1 := by
  have hlead : nib3 w &&& 0xF#4 = nib3 w := BitVec.and_allOnes
  have hmask : w &&& r.pattern.2 = wordOf (nib3 w) (nib2 w &&& placeMask r.fix2) (nib1 w &&& placeMask r.fix1)
      (nib0 w &&& placeMask r.fix0) := by
    conv_lhs => rw [← wordOf_nibs w, OpcodeRow.pattern, wordOf_and, hlead]
  rw [rowMatches_iff, hmask, OpcodeRow.pattern, wordOf_inj, and_placeMask, and_placeMask, and_placeMask,
    eq_comm (a := nib3 w)]

/-! ### The 34 rows -/

/-- A row's instruction encodes to the row's fixed nibbles with the operands in the other places (R72, R82). -/
theorem encode_build {r : OpcodeRow} (hr : r ∈ opcodeTable) (x y n : Nibble) :
    encode (r.build x y n) = wordOf r.fix3 (r.fix2.getD x) (r.fix1.getD y) (r.fix0.getD n) := by
  simp only [opcodeTable, List.mem_append] at hr
  obtain ((haddress | hliteral) | hregister) | hsystem := hr
  · fin_cases haddress
    · rfl
    · rfl
    all_goals exact wordNNN_addrOf _ _ _ _
  · fin_cases hliteral <;> exact wordXKK_byteOf _ _ _ _
  · fin_cases hregister <;> rfl
  · fin_cases hsystem <;> rfl

/-- The match and mask of a row are those of every instruction it builds. -/
theorem rowOf_build {r : OpcodeRow} (hr : r ∈ opcodeTable) (x y n : Nibble) : rowOf (r.build x y n) = r.pattern := by
  fin_cases hr <;> rfl

/-- The table, grouped by format, and the map, in R75's order, have the same rows. -/
theorem pattern_perm_opcodeMap : (opcodeTable.map OpcodeRow.pattern).Perm opcodeMap := by decide

/-! ### Decode after encode -/

/-- `decodeWord` on the four nibbles of the word. -/
def decodeNibbles (n3 n2 n1 n0 : Nibble) : Option Instr :=
  (opcodeTable.find? fun r => n3 == r.fix3 && nibbleFits r.fix2 n2 && nibbleFits r.fix1 n1 && nibbleFits r.fix0 n0).map
    fun r => r.build n2 n1 n0

theorem decodeWord_eq_decodeNibbles (w : Word) : decodeWord w = decodeNibbles (nib3 w) (nib2 w) (nib1 w) (nib0 w) := rfl

theorem decodeWord_of_nibbles {w : Word} {n3 n2 n1 n0 : Nibble} {i : Instr} (hw : w = wordOf n3 n2 n1 n0)
    (hi : decodeNibbles n3 n2 n1 n0 = some i) : decodeWord w = some i := by
  rw [hw, decodeWord_eq_decodeNibbles, nib3_wordOf, nib2_wordOf, nib1_wordOf, nib0_wordOf, hi]

/-- Decode after encode. An address or a literal is cut into its nibbles, which the row puts together again (R72). -/
theorem decodeWord_encode (i : Instr) : decodeWord (encode i) = some i := by
  cases i with
  | jp nnn | call nnn | ldI nnn | jpV0 nnn =>
    rw [← addrOf_nibbles nnn]
    exact decodeWord_of_nibbles (wordNNN_addrOf _ _ _ _) rfl
  | seVxKk x kk | sneVxKk x kk | ldVxKk x kk | addVxKk x kk | rnd x kk =>
    rw [← byteOf_byteHi_byteLo kk]
    exact decodeWord_of_nibbles (wordXKK_byteOf _ _ _ _) rfl
  | _ => exact decodeWord_of_nibbles rfl rfl

/-- Two bytes decode as their word, whatever follows them (R70). -/
theorem decode_of_decodeWord {hi lo : Byte} {i : Instr} (h : decodeWord (opcodeOf hi lo) = some i) (rest : List Byte) :
    decode (hi :: lo :: rest) = .ok (i, rest) := by
  rw [decode, h]

/-- Settles O2: on the word by `decodeWord_encode`, and the stored bytes give the word back. -/
theorem decodeOfEncode : Obligations.DecodeOfEncode := by
  intro i
  refine ⟨decodeWord_encode i, fun rest => decode_of_decodeWord ?_ rest⟩
  rw [opcodeOf_highByte_lowByte, decodeWord_encode]

/-! ### Encode after decode, and the opcode map -/

theorem encode_of_rowMatches {w : Word} {r : OpcodeRow} (hr : r ∈ opcodeTable) (hmatch : rowMatches w r = true) :
    encode (r.build (nib2 w) (nib1 w) (nib0 w)) = w := by
  obtain ⟨h3, h2, h1, h0⟩ := (rowMatches_iff w r).mp hmatch
  rw [encode_build hr, h3, h2, h1, h0, wordOf_nibs]

/-- Any row a word selects gives its instruction: not only the first one in the table, since the instruction encodes to
the word, and a word decodes to the instruction that encodes to it. -/
theorem decodeWord_of_rowMatches {w : Word} {r : OpcodeRow} (hr : r ∈ opcodeTable) (hmatch : rowMatches w r = true) :
    decodeWord w = some (r.build (nib2 w) (nib1 w) (nib0 w)) := by
  rw [← decodeWord_encode (r.build _ _ _), encode_of_rowMatches hr hmatch]

theorem exists_row_of_decodeWord {w : Word} {i : Instr} (h : decodeWord w = some i) :
    ∃ r ∈ opcodeTable, rowMatches w r = true ∧ i = r.build (nib2 w) (nib1 w) (nib0 w) := by
  obtain ⟨r, hfind, hbuild⟩ := Option.map_eq_some_iff.mp h
  exact ⟨r, List.mem_of_find?_eq_some hfind, List.find?_some hfind, hbuild.symm⟩

/-- Settles O3: the row the decoder found holds the word's own nibbles at its fixed places. -/
theorem encodeOfDecode : Obligations.EncodeOfDecode := by
  intro w i h
  obtain ⟨r, hr, hmatch, rfl⟩ := exists_row_of_decodeWord h
  exact encode_of_rowMatches hr hmatch

/-- Decode and encode are inverses (R82). -/
theorem decodeWord_eq_some_iff {w : Word} {i : Instr} : decodeWord w = some i ↔ encode i = w :=
  ⟨encodeOfDecode w i, fun h => h ▸ decodeWord_encode i⟩

/-- A word that selects a row of the map decodes to an instruction of that row (R75). -/
theorem exists_decodeWord_of_mem_opcodeMap {w : Word} {p : Word × Word} (hp : p ∈ opcodeMap) (hw : w &&& p.2 = p.1) :
    ∃ i, decodeWord w = some i ∧ rowOf i = p := by
  obtain ⟨r, hr, rfl⟩ := List.mem_map.mp (pattern_perm_opcodeMap.mem_iff.mpr hp)
  exact ⟨_, decodeWord_of_rowMatches hr ((rowMatches_iff_pattern w r).mpr hw), rowOf_build hr _ _ _⟩

/-- A decoded word selects the row of its instruction, and the map has that row (R75). -/
theorem rowOf_mem_opcodeMap_of_decodeWord {w : Word} {i : Instr} (h : decodeWord w = some i) :
    rowOf i ∈ opcodeMap ∧ w &&& (rowOf i).2 = (rowOf i).1 := by
  obtain ⟨r, hr, hmatch, rfl⟩ := exists_row_of_decodeWord h
  rw [rowOf_build hr]
  exact ⟨pattern_perm_opcodeMap.mem_iff.mp (List.mem_map_of_mem hr), (rowMatches_iff_pattern w r).mp hmatch⟩

/-- Settles O6. The rows are disjoint because a word that selects two decodes to one instruction, which has one row. -/
theorem opcodeMapSelectsInstruction : Obligations.OpcodeMapSelectsInstruction := by
  refine ⟨rfl, fun w a ha b hb hwa hwb => ?_, fun w => ⟨?_, ?_⟩, fun w i => rowOf_mem_opcodeMap_of_decodeWord⟩
  · obtain ⟨i, hi, rfl⟩ := exists_decodeWord_of_mem_opcodeMap ha hwa
    obtain ⟨j, hj, rfl⟩ := exists_decodeWord_of_mem_opcodeMap hb hwb
    rw [Option.some.inj (hi.symm.trans hj)]
  · rintro ⟨i, hi⟩
    exact ⟨rowOf i, rowOf_mem_opcodeMap_of_decodeWord hi⟩
  · rintro ⟨p, hp, hw⟩
    obtain ⟨i, hi, -⟩ := exists_decodeWord_of_mem_opcodeMap hp hw
    exact ⟨i, hi⟩

/-- Settles O1: each word is the encoding, and so decodes to the instruction. -/
theorem workedEncodings : Obligations.WorkedEncodings := by
  simp only [Obligations.WorkedEncodings, decodeWord_eq_some_iff]
  decide

/-- Settles O7: the words are the encodings of SHR and SHL, whose meanings do not name `y`. -/
theorem shiftsIgnoreSecondField : Obligations.ShiftsIgnoreSecondField := by
  intro x y y' s
  exact ⟨decodeWord_encode (.shrVx x y), rfl, decodeWord_encode (.shlVx x y), rfl⟩

/-! ### The nested case analysis (R74) -/

/-- A search that applies `f` to what it finds, as a chain of tests. -/
theorem map_find?_cons {α β : Type} (p : α → Bool) (f : α → β) (a : α) (l : List α) :
    ((a :: l).find? p).map f = if p a = true then some (f a) else (l.find? p).map f := by
  rw [List.find?_cons]
  cases p a <;> rfl

theorem eq_wordOf_iff (w : Word) (a b c d : Nibble) :
    w = wordOf a b c d ↔ nib3 w = a ∧ nib2 w = b ∧ nib1 w = c ∧ nib0 w = d := by
  conv_lhs => rw [← wordOf_nibs w, wordOf_inj]

theorem byteOf_eq_iff (a b : Nibble) (kk : Byte) : byteOf a b = kk ↔ a = byteHi kk ∧ b = byteLo kk := by
  constructor
  · rintro rfl
    rw [byteHi_byteOf, byteLo_byteOf]
    exact ⟨rfl, rfl⟩
  · rintro ⟨rfl, rfl⟩
    exact byteOf_byteHi_byteLo kk

/-- The sixteen leading digits. -/
theorem mem_nibbles (n : Nibble) : n ∈ (List.range 16).map (BitVec.ofNat 4) := by
  revert n
  decide

/-- Settles O5. Both decoders are chains of tests of nibbles; the rows that share a leading digit stand in the table in
R74's order, so once that digit is known the two chains are the same. -/
theorem tableDecodeIsNestedDecode : Obligations.TableDecodeIsNestedDecode := by
  intro w
  have hcls : 0x00E0#16 = wordOf 0x0#4 0x0#4 0xE#4 0x0#4 := rfl
  have hret : 0x00EE#16 = wordOf 0x0#4 0x0#4 0xE#4 0xE#4 := rfl
  have hlead := mem_nibbles (nib3 w)
  rw [decodeWord_eq_decodeNibbles]
  simp only [decodeNested, hcls, hret, eq_wordOf_iff, byteOf_eq_iff, byteHi, byteLo, BitVec.reduceExtractLsb']
  simp only [decodeNibbles, opcodeTable, addressRows, literalRows, registerRows, systemRows, List.cons_append,
    List.nil_append, map_find?_cons, nibbleFits]
  generalize nib3 w = n3 at hlead ⊢
  fin_cases hlead <;> simp [and_assoc]

/-! ### The unknown words (R76) -/

theorem toNat_nib3 (w : Word) : (nib3 w).toNat = w.toNat / 4096 := by
  have hw : w.toNat / 4096 < 16 := by omega
  rw [nib3, BitVec.extractLsb'_toNat, Nat.shiftRight_eq_div_pow]
  exact Nat.mod_eq_of_lt hw

theorem toNat_nib0 (w : Word) : (nib0 w).toNat = w.toNat % 16 := BitVec.extractLsb'_toNat ..

theorem byteOf_nibs (w : Word) : byteOf (nib1 w) (nib0 w) = lowByte w := by
  apply BitVec.eq_of_getLsbD_eq
  intro i hi
  rw [getLsbD_byteOf, nib1, nib0, lowByte, getLsbD_field _ _ _ _ hi]
  split_ifs
  · rw [getLsbD_field _ _ _ _ (by omega)]
  · rw [getLsbD_field _ _ _ _ (by omega)]; congr 1; omega

theorem toNat_byteOf_nibs (w : Word) : (byteOf (nib1 w) (nib0 w)).toNat = w.toNat % 256 := by
  rw [byteOf_nibs]
  exact BitVec.extractLsb'_toNat ..

/-- Settles O4: for each leading digit, the branches of R74 that answer `Unknown`, with the fields read as numbers. -/
theorem unknownWordsAreTheseGroups : Obligations.UnknownWordsAreTheseGroups := by
  intro w
  have hlead := mem_nibbles (nib3 w)
  rw [tableDecodeIsNestedDecode w, decodeNested, ← toNat_nib3, ← toNat_nib0, ← toNat_byteOf_nibs]
  generalize nib3 w = n3 at hlead ⊢
  generalize byteOf (nib1 w) (nib0 w) = kk
  generalize nib0 w = n0
  fin_cases hlead <;> simp [ite_eq_iff, BitVec.toNat_eq (x := n0), BitVec.toNat_eq (x := kk)]
  -- only the 8-group is left, whose unknown function digits are given as a range
  omega

end Sys2Proof
end

section
/-! Control flow: jumps, CALL and RET with room or an entry on the stack and without, and the skips (R100 to R107). -/

namespace Sys2Proof.Machine

open Sys2Proof.Claims

/-! ### Jumps (R101, R103) -/

theorem exec_jp (nnn : Addr12) (s : State) : exec (.jp nnn) s = .next { s with pc := nnn.setWidth 16 } := rfl

theorem exec_jpV0 (nnn : Addr12) (s : State) :
    exec (.jpV0 nnn) s = .next { s with pc := byteOperand (s.reg 0#4) + addrOperand nnn } := rfl

/-- The target of `JP V0` fits 16 bits, so it is the sum of the numbers (R103). -/
theorem toNat_byteOperand_add_addrOperand (b : Byte) (nnn : Addr12) :
    (byteOperand b + addrOperand nnn).toNat = b.toNat + nnn.toNat := by
  rw [BitVec.toNat_add_of_lt, byteOperand_toNat, addrOperand_toNat]
  rw [byteOperand_toNat, addrOperand_toNat]
  omega

/-- Settles O8: each word is the encoding of its jump, and the sum of `JP V0` does not wrap. -/
theorem jumpsSetPc : Obligations.JumpsSetPc := by
  intro nnn s
  exact ⟨decodeWord_encode (.jp nnn), exec_jp nnn s, decodeWord_encode (.jpV0 nnn),
    _, exec_jpV0 nnn s, rfl, toNat_byteOperand_add_addrOperand _ nnn⟩

/-! ### CALL (R102) -/

theorem exec_call_of_room (nnn : Addr12) {s : State} (h : s.sp.val < 16) :
    exec (.call nnn) s = .next { s with
      stack := s.stack.set s.sp.val (s.pc + 2#16) h
      sp := ⟨s.sp.val + 1, by omega⟩
      pc := nnn.setWidth 16 } := by
  cases hp : s.push s.npc with
  | none =>
    have hfull := (State.push_eq_none_iff s s.npc).mp hp
    omega
  | some u =>
    obtain ⟨_, hu⟩ := State.push_eq_some hp
    rw [exec, execCall, hp, hu]
    rfl

theorem exec_call_of_full (nnn : Addr12) {s : State} (h : s.sp.val = 16) :
    exec (.call nnn) s = .next { s with err := some .stackOverflow } := by
  rw [exec, execCall, (State.push_eq_none_iff s s.npc).mpr h]
  rfl

/-- Settles O9, with room and without. -/
theorem callPushesNextAddress : Obligations.CallPushesNextAddress := by
  intro nnn s
  exact ⟨decodeWord_encode (.call nnn), fun h => ⟨_, exec_call_of_room nnn h, rfl, rfl⟩, exec_call_of_full nnn⟩

/-! ### RET (R100) -/

theorem exec_ret_of_entry {s : State} (h : 0 < s.sp.val) :
    ∃ t, exec .ret s = .next t ∧ t.sp.val = s.sp.val - 1 ∧ s.stack[s.sp.val - 1]? = some t.pc ∧
      t = { s with sp := t.sp, pc := t.pc } := by
  cases hp : s.pop with
  | none =>
    have hempty := (State.pop_eq_none_iff s).mp hp
    omega
  | some vu =>
    obtain ⟨v, u⟩ := vu
    obtain ⟨-, hv, hu, hsp⟩ := State.pop_eq_some hp
    exact ⟨u.jumpTo v, by rw [exec, execRet, hp], hsp, hv, congrArg (·.jumpTo v) hu⟩

theorem exec_ret_of_empty {s : State} (h : s.sp.val = 0) :
    exec .ret s = .next { s with err := some .stackUnderflow } := by
  rw [exec, execRet, (State.pop_eq_none_iff s).mpr h]
  rfl

/-- Settles O10, with an entry and without. -/
theorem returnPopsAddress : Obligations.ReturnPopsAddress :=
  ⟨decodeWord_encode .ret, fun _ => ⟨exec_ret_of_entry, exec_ret_of_empty⟩⟩

/-- Settles O13: the entry RET pops is the one CALL pushed. -/
theorem returnAfterCall : Obligations.ReturnAfterCall := by
  intro nnn s hroom
  obtain ⟨-, hroomCall, -⟩ := callPushesNextAddress nnn s
  obtain ⟨t, hcall, htsp, ht⟩ := hroomCall hroom
  obtain ⟨u, hret, husp, hentry, hu⟩ := exec_ret_of_entry (s := t) (by omega)
  have hsp : u.sp = s.sp := Fin.ext (by omega)
  refine ⟨t, u, hcall, hret, ?_, hsp, ?_⟩
  · rw [htsp, ht] at hentry
    simpa using hentry.symm
  · rw [← hsp, hu, ht]

/-! ### CALL after CALL -/

theorem execAll_cons_of_next {i : Instr} {is : List Instr} {s t : State} (h : exec i s = .next t) :
    execAll (i :: is) s = execAll is t := by
  rw [execAll, h]

/-- As many CALLs as the stack has room for push one entry each (R102). -/
theorem execAll_calls {targets : List Addr12} {s : State} (h : s.sp.val + targets.length ≤ 16) :
    ∃ t, execAll (targets.map Instr.call) s = .next t ∧ t.err = s.err ∧ t.sp.val = s.sp.val + targets.length := by
  induction targets generalizing s with
  | nil => exact ⟨s, rfl, rfl, rfl⟩
  | cons nnn targets ih =>
    rw [List.length_cons] at h ⊢
    obtain ⟨u, hcall, huerr, husp⟩ :
        ∃ u, exec (.call nnn) s = .next u ∧ u.err = s.err ∧ u.sp.val = s.sp.val + 1 :=
      ⟨_, exec_call_of_room nnn (by omega), rfl, rfl⟩
    obtain ⟨t, hrun, hterr, htsp⟩ := ih (s := u) (by omega)
    exact ⟨t, (execAll_cons_of_next hcall).trans hrun, hterr.trans huerr, by omega⟩

/-- Settles O14: sixteen CALLs fill an empty stack, and on a full one CALL overflows. -/
theorem sixteenCallsThenOverflow : Obligations.SixteenCallsThenOverflow := by
  intro targets last s hlen hempty
  obtain ⟨t, hrun, herr, hsp⟩ := execAll_calls (targets := targets) (s := s) (by omega)
  have hfull : t.sp.val = 16 := by omega
  exact ⟨t, hrun, herr, hfull, exec_call_of_full last hfull⟩

/-! ### Skips (R104 to R107) -/

theorem State.skipIf_decide (s : State) (p : Prop) [Decidable p] :
    s.skipIf (decide p) = { s with pc := if p then s.pc + 4#16 else s.pc + 2#16 } := by
  have hskip : s.npc + 2#16 = s.pc + 4#16 := BitVec.add_assoc ..
  rw [State.skipIf, hskip, State.npc_eq]
  simp only [decide_eq_true_eq]
  rfl

/-- The skips on a difference: skip and advance change places. -/
theorem State.skipIf_decide_not (s : State) (p : Prop) [Decidable p] :
    s.skipIf (decide ¬p) = { s with pc := if p then s.pc + 2#16 else s.pc + 4#16 } := by
  rw [State.skipIf_decide, ite_not]

/-- Settles O11: two advances by 2 where the skip is taken, one where not. -/
theorem literalSkips : Obligations.LiteralSkips := by
  intro x kk s
  exact ⟨decodeWord_encode (.seVxKk x kk), congrArg _ (s.skipIf_decide _),
    decodeWord_encode (.sneVxKk x kk), congrArg _ (s.skipIf_decide_not _)⟩

/-- Settles O12, as O11 with a register in the place of the literal. -/
theorem registerSkips : Obligations.RegisterSkips := by
  intro x y s
  exact ⟨decodeWord_encode (.seVxVy x y), congrArg _ (s.skipIf_decide _),
    decodeWord_encode (.sneVxVy x y), congrArg _ (s.skipIf_decide_not _)⟩

end Sys2Proof.Machine
end

section
/-! Loads, arithmetic, logic, shifts and random (R111 to R122): a plain instruction writes one register, a flag instruction
writes VF first and then its destination, so with destination 0xF the result is what VF ends as (R22, D11). -/

namespace Sys2Proof.Machine

open Sys2Proof.Claims

/-! ### Registers after one write, and after a flag and a write -/

@[simp] theorem State.reg_write_self (s : State) (x : Nibble) (v : Byte) : (s.write x v).reg x = v :=
  State.reg_setReg_self s x v

theorem State.reg_write_of_ne (s : State) {x r : Nibble} (v : Byte) (h : r ≠ x) : (s.write x v).reg r = s.reg r :=
  (State.reg_write s x v r).trans (if_neg h)

@[simp] theorem State.reg_setFlag_vf (s : State) (b : Bool) : (s.setFlag b).reg 0xF#4 = flagByte b :=
  State.reg_setReg_self s 0xF#4 (flagByte b)

theorem State.reg_setFlag_of_ne (s : State) (b : Bool) {r : Nibble} (h : r ≠ 0xF#4) : (s.setFlag b).reg r = s.reg r :=
  (State.reg_setFlag s b r).trans (if_neg h)

/-- The flag stays in VF unless VF is the destination (R22). -/
theorem State.reg_flagWrite_vf (s : State) (b : Bool) {x : Nibble} (v : Byte) (h : x ≠ 0xF#4) :
    ((s.setFlag b).write x v).reg 0xF#4 = flagByte b :=
  (State.reg_write_of_ne _ v h.symm).trans (State.reg_setFlag_vf s b)

theorem State.reg_flagWrite_of_ne (s : State) (b : Bool) {x r : Nibble} (v : Byte) (hx : r ≠ x) (hf : r ≠ 0xF#4) :
    ((s.setFlag b).write x v).reg r = s.reg r :=
  (State.reg_write_of_ne _ v hx).trans (State.reg_setFlag_of_ne s b hf)

/-! ### The frames -/

theorem registersOnly_write (s : State) (x : Nibble) (v : Byte) : RegistersOnly s (s.write x v) := rfl

theorem registersOnly_flagWrite (s : State) (b : Bool) (x : Nibble) (v : Byte) :
    RegistersOnly s ((s.setFlag b).write x v) := rfl

/-! ### Flags and bytes as numbers (R110) -/

theorem flagByte_carryOut (a b : Byte) : flagByte (carryOut a b) = if 255 < a.toNat + b.toNat then 1#8 else 0#8 := by
  simp only [flagByte, carryOut, decide_eq_true_eq]

@[simp] theorem toNat_flagByte (b : Bool) : (flagByte b).toNat = b.toNat := by cases b <;> rfl

/-- VF as a number after a flag and a write: the result overwrites the flag where VF is the destination (R22, D11). -/
theorem toNat_reg_flagWrite_vf (s : State) (b : Bool) (x : Nibble) (v : Byte) :
    (((s.setFlag b).write x v).reg 0xF#4).toNat = if x = 0xF#4 then v.toNat else b.toNat := by
  split
  case isTrue hx => rw [hx, State.reg_write_self]
  case isFalse hx => rw [State.reg_flagWrite_vf s b v hx, toNat_flagByte]

theorem toNat_greater (a b : Byte) : (greater a b).toNat = if b.toNat < a.toNat then 1 else 0 := by
  rw [greater, Bool.toNat, Bool.cond_decide]

theorem toNat_lowBit (a : Byte) : (lowBit a).toNat = a.toNat % 2 := by
  rw [lowBit, BitVec.getLsbD, Nat.toNat_testBit, pow_zero, Nat.div_one]

theorem toNat_highBit (a : Byte) : (highBit a).toNat = a.toNat / 128 := by
  rw [highBit, BitVec.getLsbD, Nat.toNat_testBit]
  omega

/-- The minuend first, as the tables of R118 and R119 write a difference. -/
theorem toNat_sub_byte (a b : Byte) : (a - b).toNat = (a.toNat + 256 - b.toNat) % 256 := by
  rw [BitVec.toNat_sub]
  omega

theorem toNat_shiftRight_one (a : Byte) : (a >>> 1).toNat = a.toNat / 2 := by
  rw [BitVec.toNat_ushiftRight, Nat.shiftRight_one]

theorem toNat_shiftLeft_one (a : Byte) : (a <<< 1).toNat = 2 * a.toNat % 256 := by
  rw [BitVec.toNat_shiftLeft, Nat.shiftLeft_eq]
  omega

/-! ### Subtraction (R118, R119) -/

/-- A difference of registers read after the flag was written: VF's own old value plays no part (D11). -/
theorem toNat_sub_reg_setFlag (s : State) (b : Bool) (m n : Nibble) :
    ((s.setFlag b).reg m - (s.setFlag b).reg n).toNat =
      if m = 0xF#4 then
        if n = 0xF#4 then 0 else (b.toNat + 256 - (s.reg n).toNat) % 256
      else
        if n = 0xF#4 then ((s.reg m).toNat + 256 - b.toNat) % 256
        else ((s.reg m).toNat + 256 - (s.reg n).toNat) % 256 := by
  by_cases hm : m = 0xF#4 <;> by_cases hn : n = 0xF#4
  · rw [if_pos hm, if_pos hn, hm, hn, BitVec.sub_self, BitVec.toNat_zero]
  · rw [if_pos hm, if_neg hn, hm, toNat_sub_byte, State.reg_setFlag_vf, toNat_flagByte, State.reg_setFlag_of_ne s b hn]
  · rw [if_neg hm, if_pos hn, hn, toNat_sub_byte, State.reg_setFlag_vf, toNat_flagByte, State.reg_setFlag_of_ne s b hm]
  · rw [if_neg hm, if_neg hn, toNat_sub_byte, State.reg_setFlag_of_ne s b hm, State.reg_setFlag_of_ne s b hn]

/-- Settles O19, by destination and then by subtrahend: the minuend is `V[x]`. -/
theorem subtractByCases : Obligations.SubtractByCases := by
  intro x y s
  refine ⟨decodeWord_encode (.subVxVy x y), _, _, rfl, registersOnly_flagWrite s _ x _, rfl, ?_,
    fun r => State.reg_flagWrite_of_ne s _ _⟩
  rw [← toNat_greater, toNat_reg_flagWrite_vf, State.reg_write_self, toNat_sub_reg_setFlag]
  split
  case isTrue => split <;> rfl
  case isFalse => exact ⟨rfl, by split <;> rfl⟩

/-- Settles O20, by destination and then by minuend: the subtrahend is `V[x]`. -/
theorem subtractReverseByCases : Obligations.SubtractReverseByCases := by
  intro x y s
  refine ⟨decodeWord_encode (.subnVxVy x y), _, _, rfl, registersOnly_flagWrite s _ x _, rfl, ?_,
    fun r => State.reg_flagWrite_of_ne s _ _⟩
  rw [← toNat_greater, toNat_reg_flagWrite_vf, State.reg_write_self, toNat_sub_reg_setFlag]
  split
  case isTrue => split <;> rfl
  case isFalse => exact ⟨rfl, by split <;> rfl⟩

/-! ### Shifts (R120, R121) -/

/-- With VF as destination the shift acts on the flag just written (D11). -/
theorem toNat_flagByte_shiftRight_one (b : Bool) : (flagByte b >>> 1).toNat = 0 := by cases b <;> rfl

theorem toNat_flagByte_shiftLeft_one (b : Bool) : (flagByte b <<< 1).toNat = 2 * b.toNat := by cases b <;> rfl

/-- Settles O21: with `x = 0xF` each shift acts on the bit just written, else on the old `V[x]`. -/
theorem shiftsCaptureBit : Obligations.ShiftsCaptureBit := by
  intro x y s
  refine ⟨decodeWord_encode (.shrVx x y),
    ⟨_, rfl, registersOnly_flagWrite s _ x _, ?_, fun r => State.reg_flagWrite_of_ne s _ _⟩,
    decodeWord_encode (.shlVx x y),
    ⟨_, rfl, registersOnly_flagWrite s _ x _, ?_, fun r => State.reg_flagWrite_of_ne s _ _⟩⟩
  · rw [toNat_reg_flagWrite_vf, State.reg_write_self]
    split
    case isTrue hx => rw [hx, State.reg_setFlag_vf, toNat_flagByte_shiftRight_one]
    case isFalse hx =>
      rw [State.reg_setFlag_of_ne s _ hx]
      exact ⟨toNat_lowBit _, toNat_shiftRight_one _⟩
  · rw [toNat_reg_flagWrite_vf, State.reg_write_self]
    split
    case isTrue hx => rw [hx, State.reg_setFlag_vf, toNat_flagByte_shiftLeft_one, toNat_highBit]
    case isFalse hx =>
      rw [State.reg_setFlag_of_ne s _ hx]
      exact ⟨toNat_highBit _, toNat_shiftLeft_one _⟩

/-! ### Loads (R111, R112) -/

/-- Settles O15: each load is one write, whatever the value. -/
theorem loadsWriteOneRegister : Obligations.LoadsWriteOneRegister := by
  intro x y kk s
  exact ⟨decodeWord_encode (.ldVxKk x kk), ⟨_, rfl, registersOnly_write s x kk, State.reg_write s x kk⟩,
    decodeWord_encode (.ldVxVy x y), _, rfl, registersOnly_write s x _, State.reg_write s x _⟩

/-! ### Additions (R113, R117) -/

/-- Settles O16: the one register written takes the sum of the bytes. -/
theorem addLiteralWraps : Obligations.AddLiteralWraps := by
  intro x kk s
  refine ⟨decodeWord_encode (.addVxKk x kk), _, rfl, registersOnly_write s x _, ?_, fun r => State.reg_write_of_ne s _⟩
  rw [State.reg_write_self]
  exact BitVec.toNat_add (s.reg x) kk

/-- Settles O18: both operands are read before the carry is written. -/
theorem addSetsCarry : Obligations.AddSetsCarry := by
  intro x y s
  refine ⟨decodeWord_encode (.addVxVy x y), _, rfl, registersOnly_flagWrite s _ x _, ?_, fun hx => ?_,
    fun r => State.reg_flagWrite_of_ne s _ _⟩
  · rw [State.reg_write_self]
    exact BitVec.toNat_add (s.reg x) (s.reg y)
  · rw [State.reg_flagWrite_vf s _ _ hx, flagByte_carryOut]

/-! ### Logic (R114 to R116) -/

/-- Settles O17: a bitwise operation acts on each bit apart. -/
theorem logicLeavesFlag : Obligations.LogicLeavesFlag := by
  intro x y s
  refine ⟨decodeWord_encode (.orVxVy x y),
    ⟨_, rfl, registersOnly_write s x _, fun i _ => ?_, fun r => State.reg_write_of_ne s _⟩,
    decodeWord_encode (.andVxVy x y),
    ⟨_, rfl, registersOnly_write s x _, fun i _ => ?_, fun r => State.reg_write_of_ne s _⟩,
    decodeWord_encode (.xorVxVy x y),
    ⟨_, rfl, registersOnly_write s x _, fun i _ => ?_, fun r => State.reg_write_of_ne s _⟩⟩
  · rw [State.reg_write_self, BitVec.getLsbD_or]
  · rw [State.reg_write_self, BitVec.getLsbD_and]
  · rw [State.reg_write_self, BitVec.getLsbD_xor]

/-! ### Random (R122) -/

/-- Settles O22: one register is written, on the state whose draw is used up. -/
theorem randomIsMaskedDraw : Obligations.RandomIsMaskedDraw := by
  intro x kk s
  exact ⟨decodeWord_encode (.rnd x kk), _, rfl, rfl, State.reg_write_self s.nextDraw x _,
    fun r => State.reg_write_of_ne s.nextDraw _⟩

end Sys2Proof.Machine
end

section
/-! Index register and memory (R130 to R135): the three instructions that write `I`, then the block stores and loads, each as
what it leaves where the block ends inside memory and where it runs past the end (D13, D22). -/

namespace Sys2Proof.Machine

open Sys2Proof.Claims

/-! ### The index register (R130 to R132) -/

/-- A glyph address fits 16 bits whatever the byte (R132, D14). -/
theorem glyphAddr_toNat (v : Byte) : (glyphAddr v).toNat = 0x050 + 5 * v.toNat := by
  have hv := byteOperand_toNat v
  rw [glyphAddr]
  bv_omega

/-- Settles O23: each is one write of `I`, read as a number. -/
theorem indexWrites : Obligations.IndexWrites := by
  intro nnn x s
  refine ⟨decodeWord_encode (.ldI nnn), ⟨_, rfl, rfl, addrOperand_toNat nnn⟩,
    decodeWord_encode (.addIVx x), ⟨_, rfl, rfl, ?_⟩,
    decodeWord_encode (.ldFVx x), _, rfl, rfl, glyphAddr_toNat (s.reg x)⟩
  show (s.I + byteOperand (s.reg x)).toNat = _
  rw [BitVec.toNat_add, byteOperand_toNat]

/-! ### The bytes a block store writes -/

theorem State.regBlock_getElem? (s : State) {x : Nibble} {k : Nat} (hk : k ≤ x.toNat) :
    (s.regBlock x)[k]? = some (s.reg (BitVec.ofNat 4 k)) := by
  have hlen : k < (s.regBlock x).length := by rw [State.regBlock_length]; omega
  rw [List.getElem?_eq_getElem hlen, State.regBlock_get s x k hlen (Nat.lt_of_le_of_lt hk x.isLt)]

/-- A completed block store, address by address (R52, R55). -/
theorem memRead_of_storeBlock {m m' : Memory} {a : Nat} {bs : List Byte} (hwf : Memory.wf m = true)
    (h : storeBlock m a bs = some m') (d : Nat) :
    memRead m' d = if a ≤ d ∧ d < a + bs.length then bs[d - a]? else memRead m d := by
  have hend := (storeBlock_eq_none_iff m a bs).not.mp (by simp [h])
  have hread := (storeBlock_spec hwf h).2 d
  split
  next hin =>
    have hk : a ≤ d ∧ d - a < bs.length := by omega
    rw [memRead_of_lt (by omega), hread, dif_pos hk, List.getElem?_eq_getElem hk.2]
  next hout => rw [memRead, memRead, hread, dif_neg (by omega)]

/-- A store that may stop part-way leaves each address as before, or in range and holding its byte of the block (R171). -/
theorem memRead_of_storePrefix (take : Nat → Bool) {m : Memory} (a k : Nat) (bs : List Byte) (hwf : Memory.wf m = true)
    (d : Nat) :
    memRead (storePrefix take m a k bs) d = memRead m d ∨
      a ≤ d ∧ d < a + bs.length ∧ d < 4096 ∧ memRead (storePrefix take m a k bs) d = bs[d - a]? := by
  have hread := (storePrefix_spec take a k bs hwf).2 d
  by_cases hc : a ≤ d ∧ d - a < bs.length ∧ d < 4096 ∧ take (k + (d - a)) = true
  · obtain ⟨hle, hlt, hmem, htake⟩ := hc
    rw [dif_pos ⟨hle, hlt, hmem, htake⟩] at hread
    exact .inr ⟨hle, by omega, hmem, by rw [memRead_of_lt hmem, hread, List.getElem?_eq_getElem hlt]⟩
  · rw [dif_neg hc] at hread
    exact .inl (by rw [memRead, memRead, hread])

/-! ### Block stores (R133, R134) -/

/-- A store whose block ends inside memory completes. -/
theorem storeThrough_completes (p : PartialEffects) {bytes : List Byte} {s : State} (hwf : Memory.wf s.mem = true)
    (hfit : s.I.toNat + bytes.length ≤ 4096) :
    MemoryOnly s (storeThrough p bytes s) ∧ ∀ a, memRead (storeThrough p bytes s).mem a =
      if s.I.toNat ≤ a ∧ a < s.I.toNat + bytes.length then bytes[a - s.I.toNat]? else memRead s.mem a := by
  obtain ⟨m, hm, ht⟩ | ⟨hnone, -⟩ := storeThrough_cases p bytes s
  · rw [ht]
    exact ⟨rfl, memRead_of_storeBlock hwf hm⟩
  · exact absurd ((storeBlock_eq_none_iff _ _ _).mp hnone).2 (Nat.not_lt_of_le hfit)

/-- A store whose block runs past the end of memory takes OutOfBounds (R164, R171). -/
theorem storeThrough_traps (p : PartialEffects) {bytes : List Byte} {s : State} (hwf : Memory.wf s.mem = true)
    (hne : 0 < bytes.length) (hpast : 4096 < s.I.toNat + bytes.length) :
    storeThrough p bytes s = { s with
      mem := (storeThrough p bytes s).mem
      draws := (storeThrough p bytes s).draws
      err := some .outOfBounds } ∧
    ∀ a, memRead (storeThrough p bytes s).mem a = memRead s.mem a ∨
      s.I.toNat ≤ a ∧ a < s.I.toNat + bytes.length ∧ a < 4096 ∧
        memRead (storeThrough p bytes s).mem a = bytes[a - s.I.toNat]? := by
  obtain ⟨m, hm, -⟩ | ⟨-, ht⟩ := storeThrough_cases p bytes s
  · have hnone := (storeBlock_eq_none_iff s.mem s.dataAddr bytes).mpr ⟨hne, hpast⟩
    rw [hm] at hnone
    cases hnone
  · rw [ht]
    exact ⟨rfl, memRead_of_storePrefix _ _ 0 bytes hwf⟩

/-- Settles O24: the block is the three digits, at offsets 0, 1 and 2. -/
theorem decimalDigitsStored : Obligations.DecimalDigitsStored := by
  intro x s hwf hfit
  obtain ⟨hframe, hread⟩ := storeThrough_completes Config.partialEffects (bytes := decimalDigits (s.reg x)) hwf hfit
  refine ⟨decodeWord_encode (.ldBVx x), _, rfl, hframe, fun a => ?_⟩
  rw [hread, decimalDigits_length]
  split
  next hin =>
    obtain rfl | rfl | rfl : a = s.I.toNat ∨ a = s.I.toNat + 1 ∨ a = s.I.toNat + 2 := by omega
    · simp [decimalDigits]
    · simp [decimalDigits]
    · simp [decimalDigits]
  next hout => rw [if_neg (by omega), if_neg (by omega), if_neg (by omega)]

/-- Settles O25: the block is `V[0]` to `V[x]`, and its last address is `I + x`. -/
theorem registersStored : Obligations.RegistersStored := by
  intro x s hwf hfit
  obtain ⟨hframe, hread⟩ := storeThrough_completes Config.partialEffects (bytes := s.regBlock x) hwf
    (by rw [State.regBlock_length]; omega)
  refine ⟨decodeWord_encode (.storeVx x), _, rfl, hframe, fun a => ?_⟩
  rw [hread, State.regBlock_length]
  split
  next hin => rw [if_pos (by omega), State.regBlock_getElem? s (by omega)]
  next hout => rw [if_neg (by omega)]

/-- Settles O27: both stores trap alike; of the digits, the third has no address in range. -/
theorem storePastEndTraps : Obligations.StorePastEndTraps := by
  intro x s hwf
  constructor
  · intro hpast
    obtain ⟨hframe, hread⟩ := storeThrough_traps Config.partialEffects (bytes := s.regBlock x) hwf
      (by rw [State.regBlock_length]; omega) (by rw [State.regBlock_length]; omega)
    refine ⟨_, rfl, hframe, fun a => (hread a).imp_right ?_⟩
    rintro ⟨hle, hlt, -, hnew⟩
    rw [State.regBlock_length] at hlt
    rw [State.regBlock_getElem? s (by omega)] at hnew
    exact ⟨hle, by omega, hnew⟩
  · intro hpast
    obtain ⟨hframe, hread⟩ := storeThrough_traps Config.partialEffects (bytes := decimalDigits (s.reg x)) hwf
      (by rw [decimalDigits_length]; omega) (by rw [decimalDigits_length]; omega)
    refine ⟨_, rfl, hframe, fun a => (hread a).imp_right ?_⟩
    rintro ⟨hle, -, hmem, hnew⟩
    obtain h0 | h1 : a = s.I.toNat ∨ a = s.I.toNat + 1 := by omega
    · rw [show a - s.I.toNat = 0 by omega] at hnew
      exact .inl ⟨h0, hnew⟩
    · rw [show a - s.I.toNat = 1 by omega] at hnew
      exact .inr ⟨h1, hnew⟩

/-! ### Block loads (R135) -/

/-- A load whose block ends inside memory completes: each register up to `Vx` takes its byte. -/
theorem loadThrough_completes (p : PartialEffects) {x : Nibble} {s : State} (hfit : s.I.toNat + x.toNat < 4096) :
    RegistersOnly s (loadThrough p x s) ∧ ∀ r : Nibble,
      if r.toNat ≤ x.toNat then memRead s.mem (s.I.toNat + r.toNat) = some ((loadThrough p x s).reg r)
      else (loadThrough p x s).reg r = s.reg r := by
  obtain ⟨bytes, hb, ht⟩ | ⟨hnone, -⟩ := loadThrough_cases p x s
  · rw [ht]
    obtain ⟨hlen, hget⟩ := loadBlock_spec hb
    refine ⟨rfl, fun r => ?_⟩
    split
    next hr =>
      have hk : r.toNat < bytes.length := by omega
      show _ = some (setRegsFrom _ s.V 0 bytes)[r.toNat]
      rw [setRegsFrom_get _ _ _ _ _ r.isLt, dif_pos ⟨Nat.zero_le _, hk, rfl⟩, memRead_of_lt (by omega)]
      exact congrArg some (hget r.toNat hk).2.symm
    next hr => exact setRegsFrom_above _ s.V hlen.le hr
  · have hend := ((loadBlock_eq_none_iff _ _ _).mp hnone).2
    rw [State.dataAddr] at hend
    omega

/-- A load whose block runs past the end of memory takes OutOfBounds: each register is old, or its byte is in range and it
took it (R164, R171). -/
theorem loadThrough_traps (p : PartialEffects) {x : Nibble} {s : State} (hpast : 4096 ≤ s.I.toNat + x.toNat) :
    loadThrough p x s = { s with
      V := (loadThrough p x s).V
      draws := (loadThrough p x s).draws
      err := some .outOfBounds } ∧
    ∀ r : Nibble, (loadThrough p x s).reg r = s.reg r ∨
      r.toNat ≤ x.toNat ∧ memRead s.mem (s.I.toNat + r.toNat) = some ((loadThrough p x s).reg r) := by
  obtain ⟨bytes, hb, -⟩ | ⟨-, ht⟩ := loadThrough_cases p x s
  · have hnone := (loadBlock_eq_none_iff s.mem s.I.toNat (x.toNat + 1)).mpr (by omega)
    rw [State.dataAddr, hnone] at hb
    cases hb
  · rw [ht]
    obtain ⟨hlen, hget⟩ := loadPrefix_spec s.mem s.dataAddr (x.toNat + 1)
    refine ⟨rfl, fun r => ?_⟩
    have hV := setRegsFrom_get (partialTake p s.draws) s.V 0 (loadPrefix s.mem s.dataAddr (x.toNat + 1)) r.toNat r.isLt
    by_cases hc : r.toNat < (loadPrefix s.mem s.dataAddr (x.toNat + 1)).length ∧ partialTake p s.draws r.toNat = true
    · obtain ⟨hk, htake⟩ := hc
      rw [dif_pos ⟨Nat.zero_le _, hk, htake⟩] at hV
      have hin : r.toNat ≤ x.toNat ∧ s.I.toNat + r.toNat < 4096 := by
        rw [hlen, State.dataAddr] at hk
        omega
      refine .inr ⟨hin.1, ?_⟩
      rw [memRead_of_lt hin.2]
      exact congrArg some ((hget r.toNat hk).symm.trans hV.symm)
    · exact .inl (hV.trans (dif_neg fun h => hc h.2))

/-- Settles O26. -/
theorem registersLoaded : Obligations.RegistersLoaded := by
  intro x s hfit
  obtain ⟨hframe, hreg⟩ := loadThrough_completes Config.partialEffects hfit
  exact ⟨decodeWord_encode (.loadVx x), _, rfl, hframe, hreg⟩

/-- Settles O28. -/
theorem loadPastEndTraps : Obligations.LoadPastEndTraps := by
  intro x s hpast
  obtain ⟨hframe, hreg⟩ := loadThrough_traps Config.partialEffects hpast
  exact ⟨_, rfl, hframe, hreg⟩

/-! ### Reading a glyph (R132 with R135) -/

/-- Settles O29: the load reads the glyph area, which holds GLYPHS as reset left it, from `5 * V[x]` on. -/
theorem glyphReadsBack : Obligations.GlyphReadsBack := by
  intro x s hx hglyphs
  have hI : (glyphAddr (s.reg x)).toNat = 0x050 + 5 * (s.reg x).toNat := glyphAddr_toNat _
  obtain ⟨-, hreg⟩ := loadThrough_completes Config.partialEffects (x := 4#4)
    (s := (s.setIndex (glyphAddr (s.reg x))).advance)
    (by show (glyphAddr (s.reg x)).toNat + 4 < 4096; omega)
  refine ⟨_, _, rfl, rfl, fun k hk => ?_⟩
  have hkn : (BitVec.ofNat 4 k).toNat = k := by
    rw [BitVec.toNat_ofNat]
    omega
  have hread := hreg (BitVec.ofNat 4 k)
  rw [hkn, if_pos (show k ≤ (4#4 : Nibble).toNat from Nat.le_of_lt_succ hk)] at hread
  rw [← hread]
  show _ = memRead s.mem ((glyphAddr (s.reg x)).toNat + k)
  rw [hI, hglyphs _ (by omega) (by omega), memRead_reset (by omega), if_pos (by omega)]
  congr 1
  omega

end Sys2Proof.Machine
end

section
/-! Display (R140 to R142): CLS, then DRW over a sprite that lies in memory whole, as which pixels it toggles and when it
collides, and over one that runs past the end of memory (D15, D22). -/

namespace Sys2Proof.Machine

open Sys2Proof.Claims

/-! ### CLS (R140) -/

/-- Settles O31. -/
theorem clearScreen : Obligations.ClearScreen :=
  ⟨decodeWord_encode .cls, fun _ => ⟨_, rfl, rfl, pixelAt_replicate_zero⟩⟩

/-! ### Where a sprite pixel falls (R142) -/

theorem place_of_inside (edge : DrwEdge) {cx cy : Nat} (h : cx < 64 ∧ cy < 32) :
    place edge cx cy = some (⟨cx, h.1⟩, ⟨cy, h.2⟩) := dif_pos h

theorem place_eq_some_iff_placedAt (edge : DrwEdge) (cx cy : Nat) (px : Fin 64) (py : Fin 32) :
    place edge cx cy = some (px, py) ↔ PlacedAt edge cx cy px py := by
  by_cases h : cx < 64 ∧ cy < 32
  · rw [place_of_inside edge h, Option.some.injEq, Prod.mk.injEq, Fin.ext_iff, Fin.ext_iff]
    cases edge with
    | wrap => simp only [PlacedAt]; omega
    | clip => simp only [PlacedAt]; omega
  · unfold place
    rw [dif_neg h]
    cases edge with
    | wrap => simp only [PlacedAt, Option.some.injEq, Prod.mk.injEq, Fin.ext_iff]; omega
    | clip => simp only [PlacedAt, reduceCtorEq, false_iff]; omega

/-- Settles O35: a column below 56 + 8 and a row below 32 are placed without the edge rule. -/
theorem edgeSettingsAgreeInside : Obligations.EdgeSettingsAgreeInside := by
  intro vx vy rows fb hx hy
  have hplace : ∀ p ∈ spots (vx.toNat % 64) (vy.toNat % 32) rows, place .wrap p.1 p.2 = place .clip p.1 p.2 := by
    intro p hp
    obtain ⟨r, c, hr, hc, -, rfl⟩ := (mem_spots _ _ _ _).mp hp
    have hin : vx.toNat % 64 + c < 64 ∧ vy.toNat % 32 + r < 32 := by omega
    exact (place_of_inside .wrap hin).trans (place_of_inside .clip hin).symm
  rw [drawSprite, drawSprite, drawRows_eq_toggleAll, drawRows_eq_toggleAll, List.filterMap_congr hplace]

/-- The pixels covered by rows read from memory are those of the sprite there. -/
theorem covers_iff_spriteCovers (edge : DrwEdge) (vx vy : Byte) {m : Memory} {i n : Nat} {rows : List Byte}
    (hlen : rows.length = n) (hget : ∀ k, (hk : k < rows.length) → rows[k] = Memory.read m (i + k))
    (px : Fin 64) (py : Fin 32) : Covers edge vx vy rows px py ↔ SpriteCovers edge vx vy m i n px py := by
  subst hlen
  constructor
  · rintro ⟨r, c, hr, hc, hbit, hp⟩
    exact ⟨r, c, hr, hc, hget r hr ▸ hbit, (place_eq_some_iff_placedAt ..).mp hp⟩
  · rintro ⟨r, c, hr, hc, hbit, hp⟩
    exact ⟨r, c, hr, hc, (hget r hr).symm ▸ hbit, (place_eq_some_iff_placedAt ..).mpr hp⟩

/-! ### A DRW that completes (R141) -/

/-- The pixels that `DRW Vx,Vy,n` covers in state `s`. -/
def SpriteAt (x y n : Nibble) (s : State) : Fin 64 → Fin 32 → Prop :=
  SpriteCovers Config.drwEdge (s.reg x) (s.reg y) s.mem s.I.toNat n.toNat

/-- Everything a completed `DRW Vx,Vy,n` makes of state `s`. -/
structure Drawn (x y n : Nibble) (s t : State) : Prop where
  frame : t = { s with V := t.V, FB := t.FB, redraw := true, pc := s.pc + 2#16 }
  others : ∀ r, r ≠ 0xF#4 → t.reg r = s.reg r
  toggled : ∀ px py, pixelAt t.FB px py ≠ pixelAt s.FB px py ↔ SpriteAt x y n s px py
  collides : (∃ px py, SpriteAt x y n s px py ∧ pixelAt s.FB px py = true) → t.reg 0xF#4 = 1#8
  misses : (∀ px py, SpriteAt x y n s px py → pixelAt s.FB px py = false) → t.reg 0xF#4 = 0#8

theorem drawn_drawWhole (x y : Nibble) {n : Nibble} {s : State} {rows : List Byte}
    (hrows : loadBlock s.mem s.dataAddr n.toNat = some rows) :
    Drawn x y n s (drawWhole Config.drwEdge (s.reg x) (s.reg y) rows s) := by
  obtain ⟨hlen, hget⟩ := loadBlock_spec hrows
  have hcov := covers_iff_spriteCovers Config.drwEdge (s.reg x) (s.reg y) hlen fun k hk => (hget k hk).2
  obtain ⟨htog, hhit⟩ := drawSprite_spec Config.drwEdge (s.reg x) (s.reg y) rows s.FB (by omega)
  simp only [hcov] at htog hhit
  have hVF (b : Bool) (hb : (drawSprite Config.drwEdge (s.reg x) (s.reg y) rows s.FB).2 = b) :
      (drawWhole Config.drwEdge (s.reg x) (s.reg y) rows s).reg 0xF#4 = flagByte b :=
    hb ▸ State.reg_setFlag_vf s _
  refine ⟨rfl, fun r => State.reg_setFlag_of_ne s _, htog, fun h => hVF true (hhit.mpr h), fun h => hVF false ?_⟩
  rw [Bool.eq_false_iff, Ne, hhit]
  rintro ⟨px, py, hs, hlit⟩
  simp [h px py hs] at hlit

theorem exec_drw_of_inMemory (x y : Nibble) {n : Nibble} {s : State} (h : SpriteInMemory n s) :
    ∃ t, exec (.drw x y n) s = .next t ∧ Drawn x y n s t := by
  show ∃ t, execDrw x y n s = .next t ∧ _
  unfold execDrw
  split
  next rows hrows => exact ⟨_, rfl, drawn_drawWhole x y hrows⟩
  next hnone =>
    obtain ⟨hpos, hpast⟩ := (loadBlock_eq_none_iff _ _ _).mp hnone
    obtain rfl | hfit := h
    · cases hpos
    · exact absurd hpast (Nat.not_lt_of_le hfit)

/-- Settles O32: a pixel that went out is a covered pixel that was lit. -/
theorem drawTogglesCoveredPixels : Obligations.DrawTogglesCoveredPixels := by
  intro x y n s h
  obtain ⟨t, ht, hd⟩ := exec_drw_of_inMemory x y h
  refine ⟨decodeWord_encode (.drw x y n), t, ht, hd.frame, hd.others, hd.toggled, ?_, fun hkept => hd.misses ?_⟩
  · rintro ⟨px, py, hlit, hout⟩
    exact hd.collides ⟨px, py, (hd.toggled px py).mp (by simp [hlit, hout]), hlit⟩
  · intro px py hs
    by_contra hlit
    rw [Bool.not_eq_false] at hlit
    exact (hd.toggled px py).mpr hs ((hkept px py hlit).trans hlit.symm)

/-- A DRW whose coordinates are not in VF leaves its own sprite where it was (C7). -/
theorem Drawn.spriteAt_eq {x y n : Nibble} {s t : State} (hd : Drawn x y n s t) (hx : x ≠ 0xF#4) (hy : y ≠ 0xF#4) :
    SpriteAt x y n t = SpriteAt x y n s := by
  have hmem : t.mem = s.mem := by rw [hd.frame]
  have hI : t.I = s.I := by rw [hd.frame]
  rw [SpriteAt, SpriteAt, hd.others x hx, hd.others y hy, hmem, hI]

/-- Settles O33: both draws toggle the same pixels, and those the first one lit the second finds lit. -/
theorem drawTwiceRestoresScreen : Obligations.DrawTwiceRestoresScreen := by
  intro x y n s hx hy h
  obtain ⟨t, ht, hdt⟩ := exec_drw_of_inMemory x y h
  have hI : t.I = s.I := by rw [hdt.frame]
  obtain ⟨u, hu, hdu⟩ := exec_drw_of_inMemory x y (n := n) (s := t) (by rwa [SpriteInMemory, hI])
  have hsame := hdt.spriteAt_eq hx hy
  refine ⟨t, u, ht, hu, Screen.ext fun px py => ?_, fun hVF ⟨px, py, hs⟩ => hdu.collides ⟨px, py, ?_, ?_⟩⟩
  · by_cases hs : SpriteAt x y n s px py
    · rw [Bool.eq_not.mpr ((hdu.toggled px py).mpr (hsame ▸ hs)), Bool.eq_not.mpr ((hdt.toggled px py).mpr hs), Bool.not_not]
    · exact (not_ne_iff.mp (mt (hdu.toggled px py).mp (hsame ▸ hs))).trans (not_ne_iff.mp (mt (hdt.toggled px py).mp hs))
  · exact hsame ▸ hs
  · have hunlit : pixelAt s.FB px py = false := by
      by_contra hlit
      have hone := hdt.collides ⟨px, py, hs, Bool.not_eq_false _ ▸ hlit⟩
      rw [hVF] at hone
      cases hone
    have hchanged := (hdt.toggled px py).mpr hs
    rwa [hunlit, Bool.ne_false_iff] at hchanged

/-- Settles O34: CLS moves no coordinate and no sprite byte, and leaves nothing lit to collide with. -/
theorem drawOnClearScreen : Obligations.DrawOnClearScreen := by
  intro x y n s h
  obtain ⟨u, hu, hd⟩ := exec_drw_of_inMemory x y (n := n)
    (s := { s with FB := Vector.replicate 32 0#64, redraw := true }.advance) h
  refine ⟨_, u, rfl, hu, hd.misses fun px py _ => pixelAt_replicate_zero px py, fun px py => ?_⟩
  rw [← Bool.ne_false_iff, ← pixelAt_replicate_zero px py]
  exact hd.toggled px py

/-! ### A DRW that runs past the end of memory (R164, R171) -/

theorem exec_drw_of_past (x y : Nibble) {n : Nibble} {s : State} (hn : n ≠ 0#4) (hpast : 4096 < s.I.toNat + n.toNat) :
    exec (.drw x y n) s = .next (drawPart Config.partialEffects Config.drwEdge (s.reg x) (s.reg y)
      (loadPrefix s.mem s.dataAddr n.toNat) s) := by
  have hpos : 0 < n.toNat := Nat.pos_of_ne_zero fun h => hn (BitVec.eq_of_toNat_eq h)
  show execDrw x y n s = _
  rw [execDrw, (loadBlock_eq_none_iff s.mem s.dataAddr n.toNat).mpr ⟨hpos, hpast⟩]

/-- The rows a failing DRW drew are the rows in range, with some bits perhaps left out. -/
theorem partialRows_spec (p : PartialEffects) (d k : Nat) (rows : List Byte) :
    (partialRows p d k rows).length = rows.length ∧
      ∀ r c, (hr : r < (partialRows p d k rows).length) → (hr' : r < rows.length) →
        (partialRows p d k rows)[r].getLsbD c = true → rows[r].getLsbD c = true := by
  induction rows generalizing k with
  | nil => exact ⟨rfl, fun r c hr => absurd hr (Nat.not_lt_zero r)⟩
  | cons b bs ih =>
    obtain ⟨hlen, hbits⟩ := ih (k + 1)
    refine ⟨congrArg (· + 1) hlen, fun r c hr hr' => ?_⟩
    cases r with
    | zero =>
      cases p with
      | any => exact fun h => (Bool.and_eq_true_iff.mp ((BitVec.getLsbD_and ..).symm.trans h)).1
      | ascending => exact id
    | succ r => exact hbits r c (Nat.lt_of_succ_lt_succ hr) (Nat.lt_of_succ_lt_succ hr')

theorem covers_of_covers_partialRows {p : PartialEffects} {d : Nat} {edge : DrwEdge} {vx vy : Byte} {rows : List Byte}
    {px : Fin 64} {py : Fin 32} (h : Covers edge vx vy (partialRows p d 0 rows) px py) : Covers edge vx vy rows px py := by
  obtain ⟨hlen, hbits⟩ := partialRows_spec p d 0 rows
  obtain ⟨r, c, hr, hc, hbit, hp⟩ := h
  exact ⟨r, c, hlen ▸ hr, hc, hbits r (7 - c) hr (hlen ▸ hr) hbit, hp⟩

theorem partialVF_cases (p : PartialEffects) (d : Nat) (old : Byte) :
    partialVF p d old = old ∨ partialVF p d old = 0#8 ∨ partialVF p d old = 1#8 := by
  cases p with
  | ascending => exact .inl rfl
  | any =>
    unfold partialVF
    cases Config.partialFlag d with
    | none => exact .inl rfl
    | some b => cases b with
      | false => exact .inr (.inl rfl)
      | true => exact .inr (.inr rfl)

/-- Settles O36: the rows drawn are rows in range, of which there are `min n (4096 - I)`. -/
theorem drawPastEndTraps : Obligations.DrawPastEndTraps := by
  intro x y n s hn hpast
  obtain ⟨hlen, hget⟩ := loadPrefix_spec s.mem s.dataAddr n.toNat
  have hrows : (partialRows Config.partialEffects s.draws 0 (loadPrefix s.mem s.dataAddr n.toNat)).length ≤ 32 := by
    rw [(partialRows_spec ..).1]
    omega
  refine ⟨_, exec_drw_of_past x y hn hpast, rfl, fun r hr => (State.reg_setReg s vf _ r).trans (if_neg hr), ?_,
    fun hset => ?_, fun px py hchanged => ?_⟩
  · have hVF := State.reg_setReg_self s vf (partialVF Config.partialEffects s.draws (s.reg vf))
    exact (partialVF_cases Config.partialEffects s.draws (s.reg vf)).imp hVF.trans (.imp hVF.trans hVF.trans)
  · show partialRedraw _ _ s.redraw = true
    rw [hset, partialRedraw_of_set]
  · have hcov := ((drawSprite_spec _ _ _ _ s.FB hrows).1 px py).mp hchanged
    exact (covers_iff_spriteCovers _ _ _ hlen hget px py).mp (covers_of_covers_partialRows hcov)

end Sys2Proof.Machine
end

section
/-! Keypad and timers (R150 to R155): a skip on a key number that exists, the key `LD Vx,K` reports (R152, D20), and the moves
between registers and timers. -/

namespace Sys2Proof.Machine

/-! ### LD Vx,K (R152) -/

theorem pickKey_lowest (n : Nat) (keys : Word) : pickKey .lowest n keys = (pressedKeys keys).head? := by
  unfold pickKey
  split
  case h_1 hkeys => rw [hkeys, List.head?_nil]
  case h_2 hkeys => rw [hkeys, List.head?_cons]
  case h_3 hkeys => rw [hkeys, List.head?_cons]

theorem pickKey_highest (n : Nat) (keys : Word) : pickKey .highest n keys = (pressedKeys keys).getLast? := by
  unfold pickKey
  split
  case h_1 hkeys => rw [hkeys, List.getLast?_nil]
  case h_2 hkeys => rw [hkeys, List.getLast?_singleton]
  case h_3 hkeys => rw [hkeys]

theorem pressedKeys_sorted_le (keys : Word) : (pressedKeys keys).Pairwise (· ≤ ·) :=
  (pressedKeys_sorted keys).imp Nat.le_of_lt

theorem pickKey_lowest_le {n : Nat} {keys : Word} {k j : Nat} (hpick : pickKey .lowest n keys = some k)
    (hj : j ∈ pressedKeys keys) : k ≤ j := by
  rw [pickKey_lowest, List.head?_eq_some_head (List.ne_nil_of_mem hj), Option.some_inj] at hpick
  exact hpick ▸ (pressedKeys_sorted_le keys).rel_head hj

theorem le_pickKey_highest {n : Nat} {keys : Word} {k j : Nat} (hpick : pickKey .highest n keys = some k)
    (hj : j ∈ pressedKeys keys) : j ≤ k := by
  rw [pickKey_highest, List.getLast?_eq_some_getLast (List.ne_nil_of_mem hj), Option.some_inj] at hpick
  exact hpick ▸ (pressedKeys_sorted_le keys).rel_getLast hj

theorem exists_pickKey_of_ne_zero (p : KeyPick) (n : Nat) {keys : Word} (h : keys ≠ 0#16) :
    ∃ k, pickKey p n keys = some k :=
  Option.ne_none_iff_exists'.mp (mt (pickKey_eq_none_iff p n keys).mp h)

/-- A picked number names one of the keys there are, one that is down (R30, R152). -/
theorem pickKey_pressed {p : KeyPick} {n : Nat} {keys : Word} {k : Nat} (hpick : pickKey p n keys = some k) :
    k < 16 ∧ keyDown keys k = true :=
  (mem_pressedKeys keys k).mp (pickKey_mem hpick)

theorem exec_ldVxK_of_no_key (x : Nibble) {s : State} (h : s.keys = 0#16) : exec (.ldVxK x) s = .next s := by
  show Host.Outcome.next (waitKey _ x s) = _
  rw [waitKey, (pickKey_eq_none_iff _ s.draws s.keys).mpr h]

theorem exec_ldVxK_of_pick (x : Nibble) {s : State} {k : Nat} (hpick : pickKey Config.keyPick s.draws s.keys = some k) :
    exec (.ldVxK x) s = .next (s.nextDraw.write x (BitVec.ofNat 8 k)) := by
  show Host.Outcome.next (waitKey _ x s) = _
  rw [waitKey, hpick]

/-- Settles O38: the pressed keys stand in ascending order, so their first is the least and their last the greatest. -/
theorem waitForKey : Obligations.WaitForKey := by
  intro x s
  refine ⟨decodeWord_encode (.ldVxK x), exec_ldVxK_of_no_key x, fun hdown => ?_, fun hdown p n => ?_⟩
  · obtain ⟨k, hpick⟩ := exists_pickKey_of_ne_zero Config.keyPick s.draws hdown
    obtain ⟨hk, -⟩ := pickKey_pressed hpick
    refine ⟨_, k, exec_ldVxK_of_pick x hpick, hpick, rfl, ?_, fun r => State.reg_write_of_ne s.nextDraw _⟩
    rw [State.reg_write_self]
    exact Nat.mod_eq_of_lt (by omega)
  · obtain ⟨k, hpick⟩ := exists_pickKey_of_ne_zero p n hdown
    obtain ⟨hk, hkdown⟩ := pickKey_pressed hpick
    refine ⟨k, hk, hpick, hkdown, ?_, ?_⟩
    · rintro rfl j hj hjdown
      exact pickKey_lowest_le hpick ((mem_pressedKeys s.keys j).mpr ⟨hj, hjdown⟩)
    · rintro rfl j hj hjdown
      exact le_pickKey_highest hpick ((mem_pressedKeys s.keys j).mpr ⟨hj, hjdown⟩)

/-! ### SKP and SKNP (R150, R151) -/

theorem exec_skp_of_key {x : Nibble} {s : State} (h : (s.reg x).toNat ≤ 15) :
    exec (.skp x) s = .next (s.skipIf (keyDown s.keys (s.reg x).toNat)) :=
  if_neg h.not_gt

theorem exec_sknp_of_key {x : Nibble} {s : State} (h : (s.reg x).toNat ≤ 15) :
    exec (.sknp x) s = .next (s.skipIf (!keyDown s.keys (s.reg x).toNat)) :=
  if_neg h.not_gt

/-- A condition that is a Boolean already, as `State.skipIf_decide` is of one that is a proposition. -/
theorem State.skipIf_bool (s : State) (b : Bool) :
    s.skipIf b = { s with pc := if b = true then s.pc + 4#16 else s.pc + 2#16 } := by
  rw [← State.skipIf_decide, Bool.decide_eq_true]

theorem State.skipIf_not (s : State) (b : Bool) :
    s.skipIf (!b) = { s with pc := if b = true then s.pc + 2#16 else s.pc + 4#16 } := by
  rw [← State.skipIf_decide_not, decide_not, Bool.decide_eq_true]

/-- Settles O37: the key number is tested first (D19), then the key. -/
theorem keySkips : Obligations.KeySkips := by
  intro x s
  exact ⟨decodeWord_encode (.skp x), decodeWord_encode (.sknp x),
    fun hkey => ⟨(exec_skp_of_key hkey).trans (congrArg _ (s.skipIf_bool _)),
      (exec_sknp_of_key hkey).trans (congrArg _ (s.skipIf_not _))⟩,
    fun hbeyond => ⟨if_pos hbeyond, if_pos hbeyond⟩⟩

/-! ### DT and ST (R153 to R155) -/

/-- Settles O39: the load is one register write; each store is one timer and the advance. -/
theorem timerMoves : Obligations.TimerMoves := by
  intro x s
  exact ⟨decodeWord_encode (.ldVxDT x), ⟨_, rfl, registersOnly_write s x s.DT, State.reg_write s x s.DT⟩,
    decodeWord_encode (.ldDTVx x), rfl, decodeWord_encode (.ldSTVx x), rfl⟩

end Sys2Proof.Machine
end

section
/-! Errors (60_exceptions.md): what a step that raises leaves, which instruction raises which error and when, the timer phase
a completed step has instead, and the latch that Reset alone clears. -/

namespace Sys2Proof.Machine

open Sys2Proof.Claims

/-! ### The halted machine, and the errors of fetch and decode (R161, R164, R172) -/

theorem State.halted_iff (s : State) : s.halted = true ↔ s.err ≠ none := Option.isSome_iff_ne_none

/-- Settles O42. -/
theorem haltedStepChangesNothing : Obligations.HaltedStepChangesNothing :=
  fun s herr => step_of_halted (s.halted_iff.mpr herr)

theorem fetchDecode_of_past {s : State} (hpc : 4096 ≤ s.pc.toNat + 1) : s.fetchDecode = .error .outOfBounds := by
  have hf : s.fetch = none := if_pos hpc
  rw [State.fetchDecode, hf]

theorem fetchDecode_of_unknown {s : State} (hpc : s.pc.toNat + 1 < 4096)
    (hw : decodeWord (opcodeOf (Memory.read s.mem s.pc.toNat) (Memory.read s.mem (s.pc.toNat + 1))) = none) :
    s.fetchDecode = .error .unknownOpcode := by
  simp only [State.fetchDecode, State.fetch_of_lt hpc, decode, hw]

/-- Settles O41: the fetch's bound is tested before the decode. -/
theorem fetchAndDecodeErrors : Obligations.FetchAndDecodeErrors := by
  intro s herr
  have hrunning := s.halted_eq_false_iff.mpr herr
  exact ⟨fun hpast => step_of_error hrunning (fetchDecode_of_past hpast),
    fun hpc hw => step_of_error hrunning (fetchDecode_of_unknown hpc hw)⟩

/-! ### What a step that raises leaves (R170, R171) -/

/-- The two ways a state with an error comes from one without: the error is taken before anything changes, or an access
raised OutOfBounds, when the destinations R171 names and the model's counter may have changed. -/
inductive Raised (s t : State) : Prop
  | early {e : ErrorKind} (he : e ≠ .programTooLarge) (ht : t = s.raise e)
  | partway (ht : t = { s with
      mem := t.mem, V := t.V, FB := t.FB, redraw := t.redraw, draws := t.draws, err := some .outOfBounds })

/-- An instruction completes without an error or raises one. -/
theorem effect_completes_or_raises {s t : State} {i : Instr} (herr : s.err = none) (h : Effect s i t) :
    t.err = none ∨ Raised s t := by
  cases h with
  | raise he => exact .inr (.early he rfl)
  | wait | jump | skip | index | delayTimer | soundTimer => exact .inl herr
  | call hu =>
    obtain ⟨_, rfl⟩ := State.push_eq_some hu
    exact .inl herr
  | ret hu =>
    obtain ⟨-, -, hu, -⟩ := State.pop_eq_some hu
    rw [hu]
    exact .inl herr
  | registers _ _ ht | memory _ _ ht | screen _ _ _ ht =>
    obtain rfl | rfl := ht
    · exact .inl herr
    · exact .inr (.partway rfl)

/-- The timer phase leaves the error as it is. -/
@[simp] theorem State.timerPhase_err (s : State) : s.timerPhase.err = s.err := by
  unfold State.timerPhase
  split <;> rfl

/-- A step that raises has no timer phase, so it leaves what the fetch, the decode or the instruction left. -/
theorem raised_of_step {s t : State} (herr : s.err = none) (h : step s = .next t) (ht : t.err ≠ none) : Raised s t := by
  cases effect_of_step h with
  | halted => exact absurd herr ht
  | error _ hf => exact .early (by obtain rfl | rfl := fetchDecode_error hf <;> decide) rfl
  | @executed i u _ _ hu =>
    rw [State.timerPhase_err] at ht
    rw [State.timerPhase_of_halted (u.halted_iff.mpr ht)]
    exact (effect_completes_or_raises herr (effect_of_exec hu)).resolve_left ht

/-- Settles O44: neither way to raise touches `pc`, the timers, `I`, the stack, `sp` or the keys. -/
theorem failedStepKeepsPcAndTimers : Obligations.FailedStepKeepsPcAndTimers := by
  intro s t herr h hraised
  cases raised_of_step herr h hraised with
  | early _ ht =>
    rw [ht]
    rfl
  | partway ht =>
    have hkind : t.err = some .outOfBounds := congrArg State.err ht
    rwa [hkind]

/-- Settles O45: what raises part-way raises OutOfBounds, and every other error is taken before anything changes. -/
theorem earlyErrorsChangeOnlyErr : Obligations.EarlyErrorsChangeOnlyErr := by
  intro s t herr h
  by_cases hraised : t.err = none
  · simp [hraised]
  cases raised_of_step herr h hraised with
  | early he ht =>
    rw [ht]
    exact ⟨fun _ => rfl, fun hkind => he (Option.some.inj hkind)⟩
  | partway ht =>
    have hkind : t.err = some .outOfBounds := congrArg State.err ht
    simp [hkind]

/-! ### Which instruction raises which error (R160 to R164) -/

/-- The error instruction `i` raises in state `s`, where it raises one. -/
def errorOf (i : Instr) (s : State) : Option ErrorKind :=
  match i with
  | .call _ => if s.sp.val = 16 then some .stackOverflow else none
  | .ret => if s.sp.val = 0 then some .stackUnderflow else none
  | .drw _ _ n => if n ≠ 0#4 ∧ 4096 < s.I.toNat + n.toNat then some .outOfBounds else none
  | .ldBVx _ => if 4096 ≤ s.I.toNat + 2 then some .outOfBounds else none
  | .storeVx x | .loadVx x => if 4096 ≤ s.I.toNat + x.toNat then some .outOfBounds else none
  | .skp x | .sknp x => if 15 < (s.reg x).toNat then some .outOfBounds else none
  | _ => none

theorem storeThrough_err (p : PartialEffects) (bytes : List Byte) (s : State) :
    (storeThrough p bytes s).err =
      if 0 < bytes.length ∧ 4096 < s.I.toNat + bytes.length then some .outOfBounds else s.err := by
  have hiff : storeBlock s.mem s.dataAddr bytes = none ↔ 0 < bytes.length ∧ 4096 < s.I.toNat + bytes.length :=
    storeBlock_eq_none_iff s.mem s.dataAddr bytes
  obtain ⟨m, hm, ht⟩ | ⟨hnone, ht⟩ := storeThrough_cases p bytes s
  · rw [ht, if_neg (hiff.not.mp (by simp [hm]))]
  · rw [ht, if_pos (hiff.mp hnone)]

theorem loadThrough_err (p : PartialEffects) (x : Nibble) (s : State) :
    (loadThrough p x s).err = if 4096 ≤ s.I.toNat + x.toNat then some .outOfBounds else s.err := by
  split
  next hpast => rw [(loadThrough_traps p hpast).1]
  next hfit => rw [(loadThrough_completes p (Nat.lt_of_not_le hfit)).1]

theorem waitKey_err (p : KeyPick) (x : Nibble) (s : State) : (waitKey p x s).err = s.err := by
  unfold waitKey
  split <;> rfl

theorem not_spriteInMemory_iff {n : Nibble} {s : State} :
    ¬ SpriteInMemory n s ↔ n ≠ 0#4 ∧ 4096 < s.I.toNat + n.toNat := by
  rw [SpriteInMemory, not_or, Nat.not_le]

/-- From a state with no error latched, the error after an instruction is the one `errorOf` gives. -/
theorem exec_err {i : Instr} {s t : State} (herr : s.err = none) (h : exec i s = .next t) : t.err = errorOf i s := by
  cases i with
  | call nnn =>
    simp only [errorOf]
    split
    next hfull => cases (exec_call_of_full nnn hfull).symm.trans h; rfl
    next hroom => cases (exec_call_of_room nnn (by omega)).symm.trans h; exact herr
  | ret =>
    simp only [errorOf]
    split
    next hempty => cases (exec_ret_of_empty hempty).symm.trans h; rfl
    next hentry =>
      obtain ⟨u, hu, -, -, hframe⟩ := exec_ret_of_entry (Nat.pos_of_ne_zero hentry)
      cases hu.symm.trans h
      rw [hframe, herr]
  | drw x y n =>
    simp only [errorOf]
    split
    next hpast => cases (exec_drw_of_past x y hpast.1 hpast.2).symm.trans h; rfl
    next hfit =>
      have hin : SpriteInMemory n s := by_contra fun hpast => hfit (not_spriteInMemory_iff.mp hpast)
      obtain ⟨u, hu, hd⟩ := exec_drw_of_inMemory x y hin
      cases hu.symm.trans h
      rw [hd.frame, herr]
  | ldBVx x =>
    cases h
    rw [storeThrough_err, herr, decimalDigits_length, errorOf]
    exact if_congr (by omega) rfl rfl
  | storeVx x =>
    cases h
    rw [storeThrough_err, herr, State.regBlock_length, errorOf]
    exact if_congr (by omega) rfl rfl
  | loadVx x =>
    cases h
    rw [loadThrough_err, herr, errorOf]
  | skp x | sknp x =>
    simp only [errorOf]
    split
    next hbeyond => cases (if_pos hbeyond).symm.trans h; rfl
    next hkey => cases (if_neg hkey).symm.trans h; exact herr
  | ldVxK x =>
    cases h
    exact (waitKey_err _ x s).trans herr
  | _ =>
    cases h
    exact herr

/-- Settles O46, read off `errorOf`. -/
theorem errorCauses : Obligations.ErrorCauses := by
  intro i s t herr h
  rw [exec_err herr h]
  cases i with
  | call | ret | drw | ldBVx | storeVx | loadVx | skp | sknp =>
    simp only [errorOf]
    split
    next hcause => simp [hcause]
    next hnone => simp [hnone]
  | _ => simp [errorOf]

/-! ### The timers of a completed step (R176) -/

/-- A step that completes is an instruction's and a tick of both timers. -/
theorem tick_of_step {s t : State} (herr : s.err = none) (h : step s = .next t) (ht : t.err = none) :
    ∃ i u, s.fetchDecode = .ok i ∧ exec i s = .next u ∧ t = u.tick := by
  cases effect_of_step h with
  | halted hh => exact absurd herr (s.halted_iff.mp hh)
  | error => cases ht
  | @executed i u _ hf hu =>
    rw [State.timerPhase_err] at ht
    exact ⟨i, u, hf, hu, State.timerPhase_of_running (u.halted_eq_false_iff.mpr ht)⟩

/-- Settles O43: the instructions but LD DT,Vx and LD ST,Vx leave the timers to the tick (O52). -/
theorem timersTickInCompletedSteps : Obligations.TimersTickInCompletedSteps := by
  intro s t herr h ht
  obtain ⟨i, u, hf, hu, rfl⟩ := tick_of_step herr h ht
  obtain ⟨-, -, -, -, -, hDT, hST, -⟩ := instructionWritesOnlyItsState i s u hu
  rw [State.tick_DT, State.tick_ST, tickDown_toNat, tickDown_toNat, hf]
  refine ⟨fun hi => ?_, fun x hi => ?_, fun hi => ?_, fun x hi => ?_⟩
  · rw [hDT fun x hx => hi x (congrArg _ hx)]
  · cases hi
    cases hu
    rfl
  · rw [hST fun x hx => hi x (congrArg _ hx)]
  · cases hi
    cases hu
    rfl

/-! ### The latch (R172, R173) -/

theorem loadProgram_err {bytes : List Byte} {s t : State} (h : loadProgram bytes s = .next t) : t.err = s.err := by
  unfold loadProgram at h
  split at h
  · cases h; rfl
  · cases h

/-- One transition of a halted machine that is not a Reset. -/
theorem applyEvent_err_of_halted {e : Event} {s t : State} (herr : s.err ≠ none) (he : e ≠ .host .reset)
    (h : applyEvent e s = .next t) : t.err = s.err := by
  cases e with
  | step => cases (haltedStepChangesNothing s herr).symm.trans h; rfl
  | host op =>
    cases op with
    | reset => exact absurd rfl he
    | loadProgram bytes => exact loadProgram_err h
    | setKeys k => cases h; rfl
    | clearRedraw => cases h; rfl

/-- Settles O51, by induction on the run. -/
theorem onlyResetClearsError : Obligations.OnlyResetClearsError := by
  intro es
  induction es with
  | nil => exact fun s _ _ => rfl
  | cons e es ih =>
    intro s herr hes
    obtain ⟨he, hes⟩ := List.forall_mem_cons.mp hes
    unfold runEvents
    split
    next t ht =>
      have hkept := applyEvent_err_of_halted herr he ht
      rw [ih t (hkept ▸ herr) hes, hkept]
    · exact ih s herr hes
    · exact ih s herr hes

end Sys2Proof.Machine
end

section
/-! The host's load (R192, R165) and the parked machine (R206). -/

namespace Sys2Proof.Machine

/-! ### LoadProgram (R192, D26) -/

theorem loadProgram_of_fits {bytes : List Byte} (s : State) (h : bytes.length ≤ 3584) :
    loadProgram bytes s = .next { s with mem := storePrefix (fun _ => true) s.mem 0x200 0 bytes } :=
  if_pos (decide_eq_true h)

theorem loadProgram_of_too_long {bytes : List Byte} (s : State) (h : 3584 < bytes.length) :
    loadProgram bytes s = .fault .programTooLarge :=
  if_neg fun hfits => Nat.not_le_of_lt h (of_decide_eq_true hfits)

/-- An image that fits above 0x200 is stored whole: no byte of it meets the end of memory. -/
theorem storeBlock_image {m : Memory} {bytes : List Byte} (h : bytes.length ≤ 3584) :
    storeBlock m 0x200 bytes = some (storePrefix (fun _ => true) m 0x200 0 bytes) := by
  cases hm : storeBlock m 0x200 bytes with
  | none =>
    have hpast := ((storeBlock_eq_none_iff m 0x200 bytes).mp hm).2
    omega
  | some m' => rw [storeBlock_eq_storePrefix 0 hm]

/-- Settles O56: an image that fits is a completed block store, and a fault ends the event without a next state. -/
theorem loadProgramCopiesImage : Obligations.LoadProgramCopiesImage := by
  intro bytes s hwf
  refine ⟨fun hfits => ⟨_, loadProgram_of_fits s hfits, rfl, ?_⟩, fun hlong => ?_⟩
  · exact memRead_of_storeBlock hwf (storeBlock_image hfits)
  · have hfault := loadProgram_of_too_long s hlong
    exact ⟨hfault, by simp only [runEvents, applyEvent, applyHost, hfault]⟩

/-! ### The parked machine (R206, D31) -/

theorem parkedAt_iff (a : Addr12) (s : State) : ParkedAt a s = true ↔
    s.err = none ∧ s.pc = addrOperand a ∧ s.fetch = some (encodeBytes (.jp a)) := by
  simp only [ParkedAt, Bool.and_eq_true, decide_eq_true_eq, and_assoc]

/-- The stored bytes of an instruction decode to it where they are fetched (R82). -/
theorem fetchDecode_of_fetch_encodeBytes {s : State} {i : Instr} (h : s.fetch = some (encodeBytes i)) :
    s.fetchDecode = .ok i := by
  have hdecode : decode (encodeBytes i) = .ok (i, []) := (decodeOfEncode i).2 []
  simp only [State.fetchDecode, h, hdecode]

/-- A jump to the present `pc` changes nothing (R101). -/
theorem exec_jp_of_pc {a : Addr12} {s : State} (h : s.pc = addrOperand a) : exec (.jp a) s = .next s :=
  calc exec (.jp a) s = .next { s with pc := addrOperand a } := exec_jp a s
    _ = .next s := by rw [← h]

/-- The step of a parked machine is the timer phase alone. -/
theorem step_of_parkedAt {a : Addr12} {s : State} (h : ParkedAt a s = true) : step s = .next s.tick := by
  obtain ⟨herr, hpc, hfetch⟩ := (parkedAt_iff a s).mp h
  have hrunning := s.halted_eq_false_iff.mpr herr
  rw [step_of_ok hrunning (fetchDecode_of_fetch_encodeBytes hfetch), exec_jp_of_pc hpc, finishStep,
    State.timerPhase_of_running hrunning]

/-- Parking reads `err`, `pc` and memory, which a tick leaves alone. -/
theorem parkedAt_tick (a : Addr12) (s : State) : ParkedAt a s.tick = ParkedAt a s := rfl

/-- Settles O58: the step is a tick, and a tick keeps the machine parked. -/
theorem parkedStaysParked : Obligations.ParkedStaysParked := fun a s h =>
  ⟨s.tick, step_of_parkedAt h, rfl, tickDown_toNat s.DT, tickDown_toNat s.ST, (parkedAt_tick a s).trans h⟩

end Sys2Proof.Machine
end
